-- ==== Sys2Proof/Word.lean ====
section
/-! DEFINITION. The bit-vector widths of the Bitable bit unit's port and registers (R5, R21) and the constant
MASK64 (R9). -/

namespace Sys2Proof

/-- The command word `cw`: 32 bits (R21, R51). -/
abbrev CmdWord := BitVec 32

/-- A 64-bit value: VALUE, the operand `op` and the data result `dout` (R5, R21). -/
abbrev Word := BitVec 64

/-- A 4-bit status code: `st` of a response and the sticky error EERR (R21, R26, R201). -/
abbrev Code := BitVec 4

/-- An 8-bit field of the command word: `OPC`, `A` or `B` (R51). -/
abbrev Field8 := BitVec 8

/-- `MASK64 = 2^64 - 1` (R9). -/
def mask64 : Word := 0xFFFFFFFFFFFFFFFF

end Sys2Proof
end

