-- ==== Sys2Proof/Config.lean ====
section
/-! DEFINITION. The implementation parameters of R6, which every part of the model takes as an argument, and the values
this hardware takes. -/

namespace Sys2Proof

/-- The implementation parameters, each with its constraint (R6). -/
structure Params where
  /-- `EVAL_WIDTH`: the width in bits of an evaluator stack entry and of RAW -/
  evalWidth : Nat
  /-- `STACK_DEPTH`: the number of evaluator stack entries -/
  stackDepth : Nat
  /-- `LATENCY`: the time from command acceptance to response; no rule depends on it -/
  latency : Nat
  /-- `EVAL_WIDTH >= 65`: every 64-bit unsigned literal and its negation can be held -/
  evalWidth_ge : 65 ≤ evalWidth
  /-- `2 <= STACK_DEPTH` -/
  stackDepth_ge : 2 ≤ stackDepth
  /-- `STACK_DEPTH <= 255`: RDSTAT reports EDEPTH in 8 bits -/
  stackDepth_le : stackDepth ≤ 255

/-- This hardware's `LATENCY`. The spec leaves it OPEN and no rule depends on it (R6, R234, D1), so it has no body and
nothing in the model reads it (log entry 1). -/
opaque Config.latency : Nat

/-- The values this hardware takes: `EVAL_WIDTH = 128`, `STACK_DEPTH = 16`, `LATENCY` OPEN (R6). -/
abbrev Config.thisHardware : Params where
  evalWidth := 128
  stackDepth := 16
  latency := Config.latency
  evalWidth_ge := by decide
  stackDepth_ge := by decide
  stackDepth_le := by decide

/-- A signed two's-complement evaluator stack entry, `EVAL_WIDTH` bits wide (R8, R24); RAW has the same form (R27). -/
abbrev Entry (cfg : Params := Config.thisHardware) := BitVec cfg.evalWidth

end Sys2Proof
end

