-- ==== Sys2Proof/Syntax.lean ====
section
/-! DEFINITION. What the host can send over the command port: the raw command `(cw, op)` (R50), and the decoded
instruction, one constructor for each row of the opcode map (R54). -/

namespace Sys2Proof

/-- A command as the port carries it: the 32-bit command word and the 64-bit operand (R50). -/
structure Command where
  /-- the command word, the only part a decoder needs to know which command it is (R50) -/
  cw : CmdWord
  /-- the operand, read only by SET, PUSH, SHL and SHR (R52) -/
  op : Word
deriving DecidableEq, Repr

/-- The 28 commands of the opcode map (R54), each with the operands R52 assembles for it. Indices, amounts and chunk
numbers are numbers; `SET`'s and `PUSH`'s operands are 64-bit values. -/
inductive Instr where
  /-- SET: write the register (R101) -/
  | set (v : Word)
  /-- GET: read the register (R102) -/
  | get
  /-- GETB: read bit `i` (R103) -/
  | getb (i : Nat)
  /-- SETB: write bit `i` (R104) -/
  | setb (i : Nat) (on : Bool)
  /-- RMASK: the range mask of two bounds in caller order (R111) -/
  | rmask (a b : Nat)
  /-- EXTR: extract a range (R112) -/
  | extr (a b : Nat)
  /-- ZERO: clear a range (R113) -/
  | zero (a b : Nat)
  /-- ONE: set a range (R114) -/
  | one (a b : Nat)
  /-- TOGL: toggle a range (R115) -/
  | togl (a b : Nat)
  /-- SHL: shift the register left by `n` (R131) -/
  | shl (n : Nat)
  /-- SHR: shift the register right by `n` (R132) -/
  | shr (n : Nat)
  /-- EBEGIN: begin an evaluation (R144) -/
  | ebegin
  /-- PUSH: push an integer literal (R145) -/
  | push (v : Word)
  /-- ENEG: negate (R160) -/
  | eneg
  /-- ENOT: bitwise not (R161) -/
  | enot
  /-- EMUL: multiply (R162) -/
  | emul
  /-- EDIV: floor divide (R163) -/
  | ediv
  /-- EMOD: floor modulo (R164) -/
  | emod
  /-- EADD: add (R165) -/
  | eadd
  /-- ESUB: subtract (R166) -/
  | esub
  /-- ESHL: evaluator shift left (R167) -/
  | eshl
  /-- ESHR: evaluator shift right (R168) -/
  | eshr
  /-- EAND: bitwise and (R169) -/
  | eand
  /-- EXOR: bitwise exclusive or (R170) -/
  | exor
  /-- EOR: bitwise or (R171) -/
  | eor
  /-- COMMIT: mask and store the result (R146) -/
  | commit
  /-- RDRAW: read chunk `k` of the raw value (R147) -/
  | rdraw (k : Nat)
  /-- RDSTAT: read the evaluator's status (R149) -/
  | rdstat
deriving DecidableEq, Repr

end Sys2Proof
end

