-- ==== Sys2Proof/WellFormed.lean ====
section
/-! DEFINITION. When an instruction can be encoded: every operand lies in its field. These are the assembler's range
checks of R60, which "rejects a value outside its field". -/

namespace Sys2Proof

/-- An index, range bound or chunk number fits the 8-bit fields `A` and `B` (R51, R60: 0 to 255). -/
def fitsIndexField (i : Nat) : Bool := decide (i < 256)

/-- A register shift amount fits `op[31:0]` (R52, R60: 0 to 2^32 - 1). -/
def fitsAmountField (n : Nat) : Bool := decide (n < 4294967296)

/-- The operands of an instruction fit the fields that carry them (R60). -/
def Instr.wf : Instr → Bool
  | .set _ => true
  | .get => true
  | .getb i => fitsIndexField i
  | .setb i _ => fitsIndexField i
  | .rmask a b => fitsIndexField a && fitsIndexField b
  | .extr a b => fitsIndexField a && fitsIndexField b
  | .zero a b => fitsIndexField a && fitsIndexField b
  | .one a b => fitsIndexField a && fitsIndexField b
  | .togl a b => fitsIndexField a && fitsIndexField b
  | .shl n => fitsAmountField n
  | .shr n => fitsAmountField n
  | .ebegin => true
  | .push _ => true
  | .eneg => true
  | .enot => true
  | .emul => true
  | .ediv => true
  | .emod => true
  | .eadd => true
  | .esub => true
  | .eshl => true
  | .eshr => true
  | .eand => true
  | .exor => true
  | .eor => true
  | .commit => true
  | .rdraw k => fitsIndexField k
  | .rdstat => true

end Sys2Proof
end

