-- ==== Sys2Proof/Decode.lean ====
section
/-! DEFINITION. The decoder of the opcode map (R51 to R57), total on every command and refusing by name, and after it the
encoder, written from the same map. -/

namespace Sys2Proof

/-- The field `OPC = cw[31:24]` (R51). -/
def opcField (cw : CmdWord) : Field8 := cw.extractLsb' 24 8

/-- The field `A = cw[23:16]` (R51), zero-extended to a number (R52). -/
def aField (cw : CmdWord) : Nat := (cw.extractLsb' 16 8).toNat

/-- The field `B = cw[15:8]` (R51), zero-extended to a number (R52). -/
def bField (cw : CmdWord) : Nat := (cw.extractLsb' 8 8).toNat

/-- The field `ON = cw[0]` (R51), a Boolean (R52). -/
def onField (cw : CmdWord) : Bool := cw.getLsbD 0

/-- The register shift amount `n = zext_64(op[31:0])`; `op[63:32]` is ignored (R52, R130). -/
def amountField (op : Word) : Nat := (op.extractLsb' 0 32).toNat

/-- One row of the opcode map (R54): it selects a command word when `(cw & mask) == pattern`. -/
structure Row where
  /-- the row's `match` column -/
  pattern : CmdWord
  /-- the row's `mask` column -/
  mask : CmdWord
  /-- the operands of R52, assembled from the word and the operand -/
  make : CmdWord → Word → Instr

/-- A row's selection test, `(cw & mask) == match` (R54). -/
def Row.selects (r : Row) (cw : CmdWord) : Bool := cw &&& r.mask == r.pattern

/-- The register family's rows, opcodes 0x01 to 0x0B (R54). -/
def registerRows : List Row := [
  ⟨0x01000000, 0xFFFFFFFF, fun _ op => .set op⟩,
  ⟨0x02000000, 0xFFFFFFFF, fun _ _ => .get⟩,
  ⟨0x03000000, 0xFF00FFFF, fun cw _ => .getb (aField cw)⟩,
  ⟨0x04000000, 0xFF00FFFE, fun cw _ => .setb (aField cw) (onField cw)⟩,
  ⟨0x05000000, 0xFF0000FF, fun cw _ => .rmask (aField cw) (bField cw)⟩,
  ⟨0x06000000, 0xFF0000FF, fun cw _ => .extr (aField cw) (bField cw)⟩,
  ⟨0x07000000, 0xFF0000FF, fun cw _ => .zero (aField cw) (bField cw)⟩,
  ⟨0x08000000, 0xFF0000FF, fun cw _ => .one (aField cw) (bField cw)⟩,
  ⟨0x09000000, 0xFF0000FF, fun cw _ => .togl (aField cw) (bField cw)⟩,
  ⟨0x0A000000, 0xFFFFFFFF, fun _ op => .shl (amountField op)⟩,
  ⟨0x0B000000, 0xFFFFFFFF, fun _ op => .shr (amountField op)⟩]

/-- The evaluator family's rows, opcodes 0x20 to 0x30 (R54). -/
def evaluatorRows : List Row := [
  ⟨0x20000000, 0xFFFFFFFF, fun _ _ => .ebegin⟩,
  ⟨0x21000000, 0xFFFFFFFF, fun _ op => .push op⟩,
  ⟨0x22000000, 0xFFFFFFFF, fun _ _ => .eneg⟩,
  ⟨0x23000000, 0xFFFFFFFF, fun _ _ => .enot⟩,
  ⟨0x24000000, 0xFFFFFFFF, fun _ _ => .emul⟩,
  ⟨0x25000000, 0xFFFFFFFF, fun _ _ => .ediv⟩,
  ⟨0x26000000, 0xFFFFFFFF, fun _ _ => .emod⟩,
  ⟨0x27000000, 0xFFFFFFFF, fun _ _ => .eadd⟩,
  ⟨0x28000000, 0xFFFFFFFF, fun _ _ => .esub⟩,
  ⟨0x29000000, 0xFFFFFFFF, fun _ _ => .eshl⟩,
  ⟨0x2A000000, 0xFFFFFFFF, fun _ _ => .eshr⟩,
  ⟨0x2B000000, 0xFFFFFFFF, fun _ _ => .eand⟩,
  ⟨0x2C000000, 0xFFFFFFFF, fun _ _ => .exor⟩,
  ⟨0x2D000000, 0xFFFFFFFF, fun _ _ => .eor⟩,
  ⟨0x2E000000, 0xFFFFFFFF, fun _ _ => .commit⟩,
  ⟨0x2F000000, 0xFF00FFFF, fun cw _ => .rdraw (aField cw)⟩,
  ⟨0x30000000, 0xFFFFFFFF, fun _ _ => .rdstat⟩]

/-- The opcode map (R54). -/
def rows : List Row := registerRows ++ evaluatorRows

/-- The two ways a command word is illegal (R55). Either raises IllegalCommand. -/
inductive IllegalReason where
  /-- its `OPC` is not in the opcode map -/
  | unknownOpcode
  /-- its `OPC` is in the map, but a field the command does not use is non-zero (R53) -/
  | unusedFieldNonzero
deriving DecidableEq, Repr

/-- Decoding reads `cw` alone to know which command it is (R50), and refuses every word that matches no row, by the name
of the case of R55 that holds. -/
def decode (c : Command) : Except IllegalReason Instr :=
  match rows.find? (fun r => r.selects c.cw) with
  | some r => .ok (r.make c.cw c.op)
  | none =>
    if rows.any (fun r => opcField r.pattern == opcField c.cw) then .error .unusedFieldNonzero
    else .error .unknownOpcode

/-- The command of an instruction written as one number: bit 0 is bit 0 of `cw`, and the bits of `op` count on from bit
32. Every value crosses the port as a whole word, so no byte order enters (R41). -/
def commandOfBits (w : Nat) : Command := ⟨BitVec.ofNat 32 w, BitVec.ofNat 64 (w >>> 32)⟩

/-- The command of an instruction whose low `nbits` bits are those of `w` and whose other bits are 0. -/
def commandOfTableWord (nbits w : Nat) : Command := commandOfBits (w % 2 ^ nbits)

/-- What the decoder reads from a table word, or nothing where it refuses. -/
def decodeTableWord (nbits w : Nat) : Option Instr :=
  match decode (commandOfTableWord nbits w) with
  | .ok i => some i
  | .error _ => none

/-! ## The encoder -/

/-- `cw = (OPC, A, B, RSV, ON)` with the upper field first and `RSV = 0` (R51, R53). -/
def wordOf (opc a b : Field8) (on : Bool) : CmdWord :=
  opc ++ a ++ b ++ (0 : BitVec 7) ++ BitVec.ofBool on

/-- A command that uses no field but its opcode (R54). -/
def plainWord (opc : Field8) : CmdWord := wordOf opc 0 0 false

/-- A number placed in an 8-bit field. -/
def fieldOf (n : Nat) : Field8 := BitVec.ofNat 8 n

/-- The command of an instruction; every unused field is 0 (R53, R54), and so is every part of `op` the command does not
read. -/
def encode : Instr → Command
  | .set v => ⟨plainWord 0x01, v⟩
  | .get => ⟨plainWord 0x02, 0⟩
  | .getb i => ⟨wordOf 0x03 (fieldOf i) 0 false, 0⟩
  | .setb i on => ⟨wordOf 0x04 (fieldOf i) 0 on, 0⟩
  | .rmask a b => ⟨wordOf 0x05 (fieldOf a) (fieldOf b) false, 0⟩
  | .extr a b => ⟨wordOf 0x06 (fieldOf a) (fieldOf b) false, 0⟩
  | .zero a b => ⟨wordOf 0x07 (fieldOf a) (fieldOf b) false, 0⟩
  | .one a b => ⟨wordOf 0x08 (fieldOf a) (fieldOf b) false, 0⟩
  | .togl a b => ⟨wordOf 0x09 (fieldOf a) (fieldOf b) false, 0⟩
  | .shl n => ⟨plainWord 0x0A, BitVec.ofNat 64 n⟩
  | .shr n => ⟨plainWord 0x0B, BitVec.ofNat 64 n⟩
  | .ebegin => ⟨plainWord 0x20, 0⟩
  | .push v => ⟨plainWord 0x21, v⟩
  | .eneg => ⟨plainWord 0x22, 0⟩
  | .enot => ⟨plainWord 0x23, 0⟩
  | .emul => ⟨plainWord 0x24, 0⟩
  | .ediv => ⟨plainWord 0x25, 0⟩
  | .emod => ⟨plainWord 0x26, 0⟩
  | .eadd => ⟨plainWord 0x27, 0⟩
  | .esub => ⟨plainWord 0x28, 0⟩
  | .eshl => ⟨plainWord 0x29, 0⟩
  | .eshr => ⟨plainWord 0x2A, 0⟩
  | .eand => ⟨plainWord 0x2B, 0⟩
  | .exor => ⟨plainWord 0x2C, 0⟩
  | .eor => ⟨plainWord 0x2D, 0⟩
  | .commit => ⟨plainWord 0x2E, 0⟩
  | .rdraw k => ⟨wordOf 0x2F (fieldOf k) 0 false, 0⟩
  | .rdstat => ⟨plainWord 0x30, 0⟩

end Sys2Proof
end

