-- ==== Sys2Proof/Machine/State.lean ====
section
/-! DEFINITION. The state of the Bitable bit unit: the architectural state of R29 and R33 (VALUE, ESTACK, EDEPTH, EERR,
RAW), and the two sides of its command port as the model's own fields (log entry 2). -/

namespace Sys2Proof.Machine

/-- The response a command returns: the status `st` and the data result `dout` (R21). -/
structure Response where
  /-- the status code (R201) -/
  st : Code
  /-- the data result; 0 when the command has none or fails (R21) -/
  dout : Word
deriving DecidableEq, Repr

/-- One thing the host does to the unit (R21, R212). -/
inductive Input where
  /-- the host presents a command and waits for its response -/
  | command (c : Command)
  /-- the host asserts `reset`; `cut` is the command in progress that the reset cuts short, if there is one (R33, R230) -/
  | reset (cut : Option Command)
deriving DecidableEq, Repr

/-- The machine's state. The first five fields are the whole architectural state (R29). The last two are the model's: what
the host does next, in the one order the unit sees (R20, R47), and what the host was answered, in issue order (R235). It takes the implementation parameters as an
argument (R6); written alone, `State` is the state of this hardware. -/
structure State (cfg : Params := Config.thisHardware) where
  /-- VALUE, the register: unsigned, 64 bits (R22) -/
  value : Word
  /-- ESTACK: `STACK_DEPTH` entries of `EVAL_WIDTH` bits, `ESTACK[0]` the bottom (R24) -/
  estack : Vector (Entry cfg) cfg.stackDepth
  /-- EDEPTH, in `[0, STACK_DEPTH]`: the number of live entries (R24) -/
  edepth : Fin (cfg.stackDepth + 1)
  /-- EERR, the evaluator's sticky error: 4 bits, 0 for no error (R26) -/
  eerr : Code
  /-- RAW, the unmasked result of the last successful COMMIT, signed (R27) -/
  raw : Entry cfg
  /-- the host's inputs that the unit has not taken yet, the next one first -/
  inputs : List Input
  /-- the responses returned so far, in issue order -/
  responses : List Response
deriving DecidableEq, Repr

/-- Why the machine could stop with a fault. It has no constructor: the unit never traps, and every failing command ends
with a status code and a next state (R200, R208; no situation of the unit is left without a next state,
93_implementation_defined.md). Nobody raises it, which is safe. -/
inductive Fault where
deriving DecidableEq, Repr

/-- Why the model could refuse an instruction. -/
inductive Refusal where
  /-- Raised by an arm of `exec` for an instruction that has no meaning yet; no arm does so. Safe: the model stops where
  the unit would go on. -/
  | notModelled (mnemonic : String)
deriving DecidableEq, Repr

/-- The unit of any parameters right after reset or power-on (R33, R230, R231): VALUE, EDEPTH, EERR and RAW are 0. ESTACK's contents are
unspecified there and never observable, and the model names 0 for them (DESIGN CHOICE, log entry 4). Nothing has been
presented or answered yet. -/
def State.initial (cfg : Params) : State cfg where
  value := 0
  estack := Vector.replicate cfg.stackDepth 0
  edepth := 0
  eerr := 0
  raw := 0
  inputs := []
  responses := []

/-- This hardware right after reset or power-on (R6, R33). -/
def State.reset : State := State.initial Config.thisHardware

end Sys2Proof.Machine
end

