-- ==== Sys2Proof/Machine/Flags.lean ====
section
/-! DEFINITION. The unit has no condition flags (R28). What it reports instead are the status codes of R201, and the
status word RDSTAT builds from EDEPTH and EERR (R149). -/

namespace Sys2Proof.Machine

variable {cfg : Params}

/-- The errors of R201. -/
inductive Err where
  /-- a missing operand, or COMMIT without exactly one result; the host translator's syntax errors too -/
  | parseError
  /-- EDIV or EMOD with a zero right operand -/
  | divideByZero
  /-- a bit index or range bound above 63 -/
  | rangeViolation
  /-- an evaluator result that does not fit `EVAL_WIDTH` -/
  | evalOverflow
  /-- ESHL or ESHR with a negative count -/
  | shiftCountNegative
  /-- PUSH on a full stack -/
  | stackOverflow
  /-- a command word that matches no row of the opcode map -/
  | illegalCommand
deriving DecidableEq, Repr

/-- The status code of success (R201). -/
def okCode : Code := 0

/-- The status codes of the errors (R201). Codes 8 to 15 are reserved and never produced. -/
def Err.code : Err → Code
  | .parseError => 1
  | .divideByZero => 2
  | .rangeViolation => 3
  | .evalOverflow => 4
  | .shiftCountNegative => 5
  | .stackOverflow => 6
  | .illegalCommand => 7

/-- Whether an error is latched in EERR (R201, R26): RangeViolation and IllegalCommand never are. -/
def Err.latched : Err → Bool
  | .parseError => true
  | .divideByZero => true
  | .rangeViolation => false
  | .evalOverflow => true
  | .shiftCountNegative => true
  | .stackOverflow => true
  | .illegalCommand => false

/-- RDSTAT's data: `dout[3:0] = EERR`, `dout[7:4] = 0`, `dout[15:8] = EDEPTH`, `dout[63:16] = 0` (R149). -/
def statusWord (s : State cfg) : Word :=
  (0 : BitVec 48) ++ BitVec.ofNat 8 s.edepth.val ++ (0 : BitVec 4) ++ s.eerr

end Sys2Proof.Machine
end

