-- ==== Sys2Proof/Machine/Operands.lean ====
section
/-! DEFINITION. The operand forms and the integer operations of 00_scope.md section 4: bit indices, ranges and range
masks, register shifts, and exact arithmetic in Z with the width check. -/

namespace Sys2Proof.Machine

variable {cfg : Params}

/-! ## Bit indices and ranges -/

/-- A bit index the unit accepts: `i <= 63` (R100, R110). -/
def indexOk (i : Nat) : Bool := decide (i ≤ 63)

/-- Both bounds of a range are bit indices; the check comes before the swap (R110). -/
def rangeOk (a b : Nat) : Bool := indexOk a && indexOk b

/-- The lower bound after normalisation, `min(A, B)` (R110). -/
def rangeLo (a b : Nat) : Nat := min a b

/-- The upper bound after normalisation, `max(A, B)` (R110). -/
def rangeHi (a b : Nat) : Nat := max a b

/-- `rmask(l, h) = (2^(h-l+1) - 1) << l`, for `l <= h <= 63` (R13). -/
def rmask (l h : Nat) : Word := BitVec.ofNat 64 ((2 ^ (h - l + 1) - 1) <<< l)

/-- The mask a range command applies to VALUE: R13's mask of the normalised bounds (R110, R112 to R115). -/
def rangeMask (a b : Nat) : Word := rmask (rangeLo a b) (rangeHi a b)

/-- The range-mask generator's block: `n` times `m <- (m << 1) | 1`, from 0 (R111). -/
def maskBlock : Nat → Nat
  | 0 => 0
  | n + 1 => (maskBlock n <<< 1) ||| 1

/-- The range-mask generator: the accumulated block, shifted left by `lo` and masked to 64 bits (R111). -/
def generatedMask (a b : Nat) : Word :=
  BitVec.ofNat 64 (maskBlock (rangeHi a b - rangeLo a b + 1) <<< rangeLo a b)

/-- The single-bit mask `1 << i` (R104). -/
def bitMask (i : Nat) : Word := BitVec.ofNat 64 (1 <<< i)

/-! ## Register shifts -/

/-- `(v << n) & MASK64`: 0 once `n >= 64` (R131). -/
def shiftedLeft (v : Word) (n : Nat) : Word := if n ≥ 64 then 0 else v <<< n

/-- `v >> n`, logical: 0 once `n >= 64` (R132). -/
def shiftedRight (v : Word) (n : Nat) : Word := if n ≥ 64 then 0 else v >>> n

/-! ## Integer operations -/

/-- `fdiv(a, b) = floor(a / b)` for `b != 0` (R10). -/
def fdiv (a b : Int) : Int := Int.fdiv a b

/-- `fmod(a, b) = a - b * fdiv(a, b)` for `b != 0` (R10). -/
def fmod (a b : Int) : Int := a - b * fdiv a b

/-- `~a = -a - 1` (R11). -/
def inot (a : Int) : Int := -a - 1

/-- Bit `k` of an integer read as an infinite two's-complement bit string: `floor(a / 2^k) mod 2` (R11). -/
def ibit (a : Int) (k : Nat) : Int := fmod (fdiv a ((2 ^ k : Nat) : Int)) 2

/-- `a & b` over the infinite two's-complement bits (R11). A negative integer `-m - 1` has the inverted bits of `m`. -/
def iand : Int → Int → Int
  | .ofNat m, .ofNat n => .ofNat (m &&& n)
  | .ofNat m, .negSucc n => .ofNat (m ^^^ (m &&& n))
  | .negSucc m, .ofNat n => .ofNat (n ^^^ (m &&& n))
  | .negSucc m, .negSucc n => .negSucc (m ||| n)

/-- `a | b` over the infinite two's-complement bits (R11). -/
def ior : Int → Int → Int
  | .ofNat m, .ofNat n => .ofNat (m ||| n)
  | .ofNat m, .negSucc n => .negSucc (n ^^^ (m &&& n))
  | .negSucc m, .ofNat n => .negSucc (m ^^^ (m &&& n))
  | .negSucc m, .negSucc n => .negSucc (m &&& n)

/-- `a ^ b` over the infinite two's-complement bits (R11). -/
def ixor : Int → Int → Int
  | .ofNat m, .ofNat n => .ofNat (m ^^^ n)
  | .ofNat m, .negSucc n => .negSucc (m ^^^ n)
  | .negSucc m, .ofNat n => .negSucc (m ^^^ n)
  | .negSucc m, .negSucc n => .ofNat (m ^^^ n)

/-- `a << n = a * 2^n` (R11). -/
def ishl (a : Int) (n : Nat) : Int := a * ((2 ^ n : Nat) : Int)

/-- `a >> n = floor(a / 2^n)` (R11). -/
def ishr (a : Int) (n : Nat) : Int := fdiv a ((2 ^ n : Nat) : Int)

/-- `fits(v)`: `-2^(EVAL_WIDTH-1) <= v <= 2^(EVAL_WIDTH-1) - 1` (R9, R142). -/
def fits (cfg : Params) (v : Int) : Bool :=
  decide (-((2 ^ (cfg.evalWidth - 1) : Nat) : Int) ≤ v) &&
    decide (v ≤ ((2 ^ (cfg.evalWidth - 1) : Nat) : Int) - 1)

/-- `RAW[64*k + 63 : 64*k]`: the chunk's two's-complement bits, sign fill above `EVAL_WIDTH - 1` (R9, R147). -/
def rawChunk (raw : Entry cfg) (k : Nat) : Word := (raw.sshiftRight (64 * k)).setWidth 64

/-! ## What an ALU command computes -/

/-- The shift count an ALU command works with. From `EVAL_WIDTH` on, a larger count changes neither whether a shifted
entry fits nor, where it fits, its value (R167, R168; DEDUCED, log entry 9), so the model never builds `2^b` for a huge
`b`. -/
def shiftCount (cfg : Params) (b : Int) : Nat := min b.toNat cfg.evalWidth

/-- The function of EDIV: DivideByZero for a zero divisor, else the floor quotient (R163). -/
def aluDiv (a b : Int) : Except Err Int := if b = 0 then .error .divideByZero else .ok (fdiv a b)

/-- The function of EMOD: DivideByZero for a zero divisor, else the floor remainder (R164). -/
def aluMod (a b : Int) : Except Err Int := if b = 0 then .error .divideByZero else .ok (fmod a b)

/-- The function of ESHL: ShiftCountNegative for a negative count, else `a * 2^b` (R167). -/
def aluShl (cfg : Params) (a b : Int) : Except Err Int :=
  if b < 0 then .error .shiftCountNegative else .ok (ishl a (shiftCount cfg b))

/-- The function of ESHR: ShiftCountNegative for a negative count, else `fdiv(a, 2^b)` (R168). -/
def aluShr (cfg : Params) (a b : Int) : Except Err Int :=
  if b < 0 then .error .shiftCountNegative else .ok (ishr a (shiftCount cfg b))

end Sys2Proof.Machine
end

