-- ==== Sys2Proof/Machine/Ops.lean ====
section
/-! DEFINITION. The named operations the meanings share: the response (R9), the masking write of VALUE (R23), the two ways
a command fails (R141, R200), error gating (R140), the stack primitives (R141) and the operator procedures (R148). The
unit has no memory (R40) and no trap to enter or return from (R208, R209). -/

namespace Sys2Proof.Machine

variable {cfg : Params}

/-- What a meaning answers. -/
abbrev Result (cfg : Params := Config.thisHardware) := Host.Outcome (State cfg) Fault Refusal

/-- The command's response is appended to the responses in issue order (R9, R235). -/
def State.respond (s : State cfg) (st : Code) (dout : Word) : State cfg :=
  { s with responses := s.responses ++ [⟨st, dout⟩] }

/-- `respond(st, dout)`: the command ends and returns its status and data (R9). -/
def respond (st : Code) (dout : Word) (s : State cfg) : Result cfg := .next (s.respond st dout)

/-- `raise E`: the command ends with `respond(code(E), 0)` and changes no other state (R9, R200). -/
def raise (e : Err) (s : State cfg) : Result cfg := respond e.code 0 s

/-- EERR latches a code (R141, R143). -/
def State.latch (s : State cfg) (e : Err) : State cfg := { s with eerr := e.code }

/-- `efail(code)`: an evaluator error writes EERR, leaves ESTACK, EDEPTH, VALUE and RAW unchanged, and ends the command
(R141). -/
def efail (e : Err) (s : State cfg) : Result cfg := respond e.code 0 (s.latch e)

/-- Error gating: while `EERR != 0` a gated command changes no state and responds `(EERR, 0)` (R140). -/
def gated (s : State cfg) (run : State cfg → Result cfg) : Result cfg :=
  if s.eerr = okCode then run s else respond s.eerr 0 s

/-- The one masking write of VALUE, `VALUE <- v & MASK64` (R23): the low 64 bits of a value of any width. -/
def State.setValue {w : Nat} (s : State cfg) (v : BitVec w) : State cfg := { s with value := v.setWidth 64 }

/-- RAW is written by a successful COMMIT alone (R27). -/
def State.setRaw (s : State cfg) (v : Entry cfg) : State cfg := { s with raw := v }

/-- The stack emptied: `EDEPTH <- 0` (R144, R146). The entries keep their contents, which nothing reads (R24, log entry 5). -/
def State.emptyStack (s : State cfg) : State cfg := { s with edepth := 0 }

/-- EERR cleared: `EERR <- 0` (R144). -/
def State.clearError (s : State cfg) : State cfg := { s with eerr := okCode }

/-! ## Stack primitives (R141) -/

/-- `push(v)`: `ESTACK[EDEPTH] <- v; EDEPTH <- EDEPTH + 1`, where there is room. -/
def State.push (s : State cfg) (v : Entry cfg) (room : s.edepth.val < cfg.stackDepth) : State cfg :=
  { s with estack := s.estack.set s.edepth.val v room, edepth := ⟨s.edepth.val + 1, Nat.succ_lt_succ room⟩ }

/-- The live entries, bottom first: `ESTACK[0]` to `ESTACK[EDEPTH-1]` (R24, R235). -/
def State.live (s : State cfg) : List (Entry cfg) := s.estack.toList.take s.edepth.val

/-- The entry `k` below the top, `ESTACK[EDEPTH-1-k]`, which needs more than `k` live entries. -/
def State.fromTop (s : State cfg) (k : Nat) (live : k < s.edepth.val) : Entry cfg :=
  s.estack[s.edepth.val - 1 - k]'(by have := s.edepth.isLt; omega)

/-- `top() = ESTACK[EDEPTH-1]`, which needs `EDEPTH >= 1`. -/
def State.top (s : State cfg) (live : 0 < s.edepth.val) : Entry cfg := s.fromTop 0 live

/-- `second() = ESTACK[EDEPTH-2]`, which needs `EDEPTH >= 2`. -/
def State.second (s : State cfg) (live : 1 < s.edepth.val) : Entry cfg := s.fromTop 1 live

/-- `ESTACK[EDEPTH-1] <- x` (R148, `unop`). -/
def State.replaceTop (s : State cfg) (x : Entry cfg) (live : 0 < s.edepth.val) : State cfg :=
  { s with estack := s.estack.set (s.edepth.val - 1) x (by have := s.edepth.isLt; omega) }

/-- `ESTACK[EDEPTH-2] <- x; EDEPTH <- EDEPTH - 1` (R148, `binop`). -/
def State.replaceTopTwo (s : State cfg) (x : Entry cfg) (live : 1 < s.edepth.val) : State cfg :=
  { s with
    estack := s.estack.set (s.edepth.val - 2) x (by have := s.edepth.isLt; omega)
    edepth := ⟨s.edepth.val - 1, by have := s.edepth.isLt; omega⟩ }

/-! ## Operator procedures (R148) -/

/-- The end both operator procedures share: the operator's own error first, then EvalOverflow, else the result is stored
and the command responds `(0, 0)` (R142, R148). -/
def finishOperator (x : Except Err Int) (s : State cfg) (store : Entry cfg → State cfg) : Result cfg :=
  match x with
  | .error e => efail e s
  | .ok r => if fits cfg r then respond okCode 0 (store (BitVec.ofInt cfg.evalWidth r)) else efail .evalOverflow s

/-- `unop(f)`: the sticky error, then the missing operand, then the operator (R148). -/
def unop (f : Int → Except Err Int) (s : State cfg) : Result cfg :=
  gated s fun s =>
    if live : 0 < s.edepth.val then
      finishOperator (f (s.top live).toInt) s (fun x => s.replaceTop x live)
    else efail .parseError s

/-- `binop(f)`: as `unop`, with `a = second()` the left operand and `b = top()` the right (R148). -/
def binop (f : Int → Int → Except Err Int) (s : State cfg) : Result cfg :=
  gated s fun s =>
    if live : 1 < s.edepth.val then
      finishOperator (f (s.second live).toInt (s.top (Nat.lt_of_succ_lt live)).toInt) s
        (fun x => s.replaceTopTwo x live)
    else efail .parseError s

/-! ## Register commands -/

/-- A command that takes a bit index checks it before anything else (R100). -/
def withIndex (i : Nat) (s : State cfg) (run : State cfg → Result cfg) : Result cfg :=
  if indexOk i then run s else raise .rangeViolation s

/-- A range command checks both bounds before anything else (R110). -/
def withRange (a b : Nat) (s : State cfg) (run : State cfg → Result cfg) : Result cfg :=
  if rangeOk a b then run s else raise .rangeViolation s

/-- A register command that writes VALUE and has no data result: `VALUE <- v; respond(0, 0)`. -/
def writeValue (v : Word) (s : State cfg) : Result cfg := respond okCode 0 (s.setValue v)

/-! ## The command port -/

/-- The unit with no command presented: it waits, and nothing changes (R44, R230; log entry 3). -/
def waitForCommand (s : State cfg) : Result cfg := .next s

/-- An illegal command raises IllegalCommand and changes no state; in particular it does not write EERR (R55, R57). -/
def illegalCommand (s : State cfg) : Result cfg := raise .illegalCommand s

/-- Reset puts every piece of the unit's state in its reset value and gives no response; a command it cuts short has no
effect and no response either (R33, R230). What the host still presents, and what it was answered before, stands. -/
def resetUnit (s : State cfg) : Result cfg :=
  .next { State.initial cfg with inputs := s.inputs, responses := s.responses }

/-- The unit takes the host's next input off the port, if there is one (R20, R45). -/
def State.takeInput (s : State cfg) : Option (Input × State cfg) :=
  match s.inputs with
  | [] => none
  | i :: rest => some (i, { s with inputs := rest })

/-- One step of a unit whose instructions mean what `run` says: it takes the host's next input and runs it to completion
(R20, R45). A command is decoded first, so that an illegal one is refused before any other check (R57). -/
def takeStep (run : Instr → State cfg → Result cfg) (s : State cfg) : Result cfg :=
  match s.takeInput with
  | none => waitForCommand s
  | some (.reset _, t) => resetUnit t
  | some (.command c, t) =>
    match decode c with
    | .ok i => run i t
    | .error _ => illegalCommand t

/-- The host presents an input that comes before all others. -/
def State.presentNext (s : State cfg) (i : Input) : State cfg := { s with inputs := i :: s.inputs }

/-- The host presents a sequence of commands, after what it has presented before (R20, R47). -/
def State.present (s : State cfg) (cs : List Command) : State cfg :=
  { s with inputs := s.inputs ++ cs.map Input.command }

end Sys2Proof.Machine
end

