-- ==== Sys2Proof/Machine/EvalAlu.lean ====
section
/-! DEFINITION. The evaluator ALU commands (44_evaluator_alu.md): each runs `unop` or `binop` of R148 with its own
function over Z. -/

namespace Sys2Proof.Machine

variable {cfg : Params}

/-- ENEG: `unop(a => -a)` (R160). -/
def execEneg (s : State cfg) : Result cfg := unop (fun a => .ok (-a)) s

/-- ENOT: `unop(a => ~a)` (R161). -/
def execEnot (s : State cfg) : Result cfg := unop (fun a => .ok (inot a)) s

/-- EMUL: `binop((a, b) => a * b)`, exact (R162). -/
def execEmul (s : State cfg) : Result cfg := binop (fun a b => .ok (a * b)) s

/-- EDIV: floor division; DivideByZero for `b = 0` (R163). -/
def execEdiv (s : State cfg) : Result cfg := binop aluDiv s

/-- EMOD: floor modulo; DivideByZero for `b = 0` (R164). -/
def execEmod (s : State cfg) : Result cfg := binop aluMod s

/-- EADD: `binop((a, b) => a + b)`, exact (R165). -/
def execEadd (s : State cfg) : Result cfg := binop (fun a b => .ok (a + b)) s

/-- ESUB: `binop((a, b) => a - b)`, exact (R166). -/
def execEsub (s : State cfg) : Result cfg := binop (fun a b => .ok (a - b)) s

/-- ESHL: `a * 2^b`; ShiftCountNegative for `b < 0` (R167). -/
def execEshl (s : State cfg) : Result cfg := binop (aluShl cfg) s

/-- ESHR: `fdiv(a, 2^b)`, the arithmetic shift; ShiftCountNegative for `b < 0` (R168). -/
def execEshr (s : State cfg) : Result cfg := binop (aluShr cfg) s

/-- EAND: `binop((a, b) => a & b)` over the infinite two's-complement bits (R169). -/
def execEand (s : State cfg) : Result cfg := binop (fun a b => .ok (iand a b)) s

/-- EXOR: `binop((a, b) => a ^ b)` over the infinite two's-complement bits (R170). -/
def execExor (s : State cfg) : Result cfg := binop (fun a b => .ok (ixor a b)) s

/-- EOR: `binop((a, b) => a | b)` over the infinite two's-complement bits (R171). -/
def execEor (s : State cfg) : Result cfg := binop (fun a b => .ok (ior a b)) s

end Sys2Proof.Machine
end

