-- ==== Sys2Proof/Machine/EvalControl.lean ====
section
/-! DEFINITION. The evaluator's stack and control commands EBEGIN, PUSH, COMMIT, RDRAW and RDSTAT
(43_evaluator_control.md). -/

namespace Sys2Proof.Machine

variable {cfg : Params}

/-- EBEGIN: `EDEPTH <- 0; EERR <- 0; respond(0, 0)`; it is not gated (R144). -/
def execEbegin (s : State cfg) : Result cfg := respond okCode 0 s.emptyStack.clearError

/-- PUSH: gated; StackOverflow on a full stack, else `op` zero-extended goes on the stack (R145). -/
def execPush (v : Word) (s : State cfg) : Result cfg :=
  gated s fun s =>
    if room : s.edepth.val < cfg.stackDepth then
      respond okCode 0 (s.push (v.setWidth cfg.evalWidth) room)
    else efail .stackOverflow s

/-- COMMIT: gated; ParseError unless exactly one entry `v` is live, else `VALUE <- v & MASK64; RAW <- v; EDEPTH <- 0` and
the masked value is the response's data (R146). -/
def execCommit (s : State cfg) : Result cfg :=
  gated s fun s =>
    if one : s.edepth.val = 1 then
      let v := s.top (by omega)
      respond okCode (v.setWidth 64) ((s.setValue v).setRaw v).emptyStack
    else efail .parseError s

/-- RDRAW: `respond(0, RAW[64*k + 63 : 64*k])`; not gated, and every `k` is legal (R147). -/
def execRdraw (k : Nat) (s : State cfg) : Result cfg := respond okCode (rawChunk s.raw k) s

/-- RDSTAT: `respond(0, (0, EDEPTH[7:0], 0000, EERR))`; not gated, no state changes (R149). -/
def execRdstat (s : State cfg) : Result cfg := respond okCode (statusWord s) s

end Sys2Proof.Machine
end

