-- ==== Sys2Proof/Machine/Range.lean ====
section
/-! DEFINITION. The range-mask generator and the range commands RMASK, EXTR, ZERO, ONE and TOGL (41_range.md). -/

namespace Sys2Proof.Machine

variable {cfg : Params}

/-- RMASK: after the range check, the generated mask in `dout`; no state changes (R111). -/
def execRmask (a b : Nat) (s : State cfg) : Result cfg :=
  withRange a b s fun s => respond okCode (generatedMask a b) s

/-- EXTR: `VALUE <- (VALUE & rmask(lo, hi)) >> lo`, a logical shift (R112). -/
def execExtr (a b : Nat) (s : State cfg) : Result cfg :=
  withRange a b s fun s => writeValue ((s.value &&& rangeMask a b) >>> rangeLo a b) s

/-- ZERO: `VALUE <- VALUE & (MASK64 ^ rmask(lo, hi))` (R113). -/
def execZero (a b : Nat) (s : State cfg) : Result cfg :=
  withRange a b s fun s => writeValue (s.value &&& (mask64 ^^^ rangeMask a b)) s

/-- ONE: `VALUE <- VALUE | rmask(lo, hi)` (R114). -/
def execOne (a b : Nat) (s : State cfg) : Result cfg :=
  withRange a b s fun s => writeValue (s.value ||| rangeMask a b) s

/-- TOGL: `VALUE <- VALUE ^ rmask(lo, hi)` (R115). -/
def execTogl (a b : Nat) (s : State cfg) : Result cfg :=
  withRange a b s fun s => writeValue (s.value ^^^ rangeMask a b) s

end Sys2Proof.Machine
end

