-- ==== Sys2Proof/Machine/Register.lean ====
section
/-! DEFINITION. The register access commands SET, GET, GETB and SETB (40_register_access.md). -/

namespace Sys2Proof.Machine

variable {cfg : Params}

/-- SET: `VALUE <- op & MASK64; respond(0, 0)` (R101). -/
def execSet (v : Word) (s : State cfg) : Result cfg := writeValue v s

/-- GET: `respond(0, VALUE)` (R102). -/
def execGet (s : State cfg) : Result cfg := respond okCode s.value s

/-- GETB: after the index check, `respond(0, (VALUE >> A) & 1)` (R103). -/
def execGetb (i : Nat) (s : State cfg) : Result cfg :=
  withIndex i s fun s => respond okCode ((s.value >>> i) &&& 1) s

/-- SETB: after the index check, `VALUE | (1 << A)` or `VALUE & (MASK64 ^ (1 << A))` (R104). -/
def execSetb (i : Nat) (on : Bool) (s : State cfg) : Result cfg :=
  withIndex i s fun s =>
    writeValue (if on then s.value ||| bitMask i else s.value &&& (mask64 ^^^ bitMask i)) s

end Sys2Proof.Machine
end

