-- ==== Sys2Proof/Machine/Shift.lean ====
section
/-! DEFINITION. The register shift commands SHL and SHR (42_shift.md). No amount is out of range (R130). -/

namespace Sys2Proof.Machine

variable {cfg : Params}

/-- SHL: `VALUE <- (VALUE << n) & MASK64` (R131). -/
def execShl (n : Nat) (s : State cfg) : Result cfg := writeValue (shiftedLeft s.value n) s

/-- SHR: `VALUE <- VALUE >> n` (R132). -/
def execShr (n : Nat) (s : State cfg) : Result cfg := writeValue (shiftedRight s.value n) s

end Sys2Proof.Machine
end

