-- ==== Sys2Proof/Machine/Dispatch.lean ====
section
/-! DEFINITION. The dispatch of every instruction to its own meaning, in the order of the opcode map (R54). -/

namespace Sys2Proof.Machine

def exec (i : Instr) (s : State) : Host.Outcome State Fault Refusal :=
  match i with
  | .set v => Sys2Proof.Machine.execSet v s
  | .get => Sys2Proof.Machine.execGet s
  | .getb idx => Sys2Proof.Machine.execGetb idx s
  | .setb idx on => Sys2Proof.Machine.execSetb idx on s
  | .rmask a b => Sys2Proof.Machine.execRmask a b s
  | .extr a b => Sys2Proof.Machine.execExtr a b s
  | .zero a b => Sys2Proof.Machine.execZero a b s
  | .one a b => Sys2Proof.Machine.execOne a b s
  | .togl a b => Sys2Proof.Machine.execTogl a b s
  | .shl n => Sys2Proof.Machine.execShl n s
  | .shr n => Sys2Proof.Machine.execShr n s
  | .ebegin => Sys2Proof.Machine.execEbegin s
  | .push v => Sys2Proof.Machine.execPush v s
  | .eneg => Sys2Proof.Machine.execEneg s
  | .enot => Sys2Proof.Machine.execEnot s
  | .emul => Sys2Proof.Machine.execEmul s
  | .ediv => Sys2Proof.Machine.execEdiv s
  | .emod => Sys2Proof.Machine.execEmod s
  | .eadd => Sys2Proof.Machine.execEadd s
  | .esub => Sys2Proof.Machine.execEsub s
  | .eshl => Sys2Proof.Machine.execEshl s
  | .eshr => Sys2Proof.Machine.execEshr s
  | .eand => Sys2Proof.Machine.execEand s
  | .exor => Sys2Proof.Machine.execExor s
  | .eor => Sys2Proof.Machine.execEor s
  | .commit => Sys2Proof.Machine.execCommit s
  | .rdraw k => Sys2Proof.Machine.execRdraw k s
  | .rdstat => Sys2Proof.Machine.execRdstat s

end Sys2Proof.Machine
end

