-- ==== Sys2Proof/Machine/Step.lean ====
section
/-! DEFINITION. One step of the machine of this hardware, and the state in which it runs a given table word next. -/

namespace Sys2Proof.Machine

/-- One step of this hardware. -/
def step (s : State) : Host.Outcome State Fault Refusal := takeStep exec s

/-- The state in which the host presents the table word's command next (log entry 6). -/
def State.withFetchWord (s : State) (nbits w : Nat) : State :=
  s.presentNext (.command (commandOfTableWord nbits w))

end Sys2Proof.Machine
end

