-- ==== Sys2Proof/Machine/Expression.lean ====
section
/-! DEFINITION. The expression language of the host translator (30_encoding.md section 3): characters to tokens (R70 to
R73), tokens to an expression (R74), its reference meaning over Z (R77), and its translation to commands (R78 to R81).
It runs on the host, outside the unit (R4), and is the unit's assembler for expressions. A text is a list of
characters. Every failure is the host's ParseError (R76), here `none`. -/

namespace Sys2Proof.Machine

/-! ## Expressions and their reference meaning -/

/-- The unary operators, `-` and `~` (R74). -/
inductive UnaryOp where
  /-- unary `-` -/
  | neg
  /-- unary `~` -/
  | not
deriving DecidableEq, Repr

/-- The binary operators (R74). -/
inductive BinaryOp where
  /-- `*` -/
  | mul
  /-- `/` -/
  | div
  /-- `%` -/
  | mod
  /-- `+` -/
  | add
  /-- binary `-` -/
  | sub
  /-- `<<` -/
  | shl
  /-- `>>` -/
  | shr
  /-- `&` -/
  | and
  /-- `^` -/
  | xor
  /-- `|` -/
  | or
deriving DecidableEq, Repr

/-- An expression. Parentheses leave no trace: `V((e)) = V(e)` and `T((e)) = T(e)` (R77, R80). -/
inductive Expr where
  /-- a literal, a non-negative integer of any size (R73) -/
  | lit (n : Nat)
  /-- a unary operator applied to its operand -/
  | un (u : UnaryOp) (e : Expr)
  /-- a binary operator between its left and its right operand -/
  | bin (o : BinaryOp) (l r : Expr)
deriving DecidableEq, Repr

/-- A unary operator over Z (R77). -/
def UnaryOp.apply : UnaryOp → Int → Int
  | .neg, a => -a
  | .not, a => inot a

/-- A binary operator over Z, or its error: `/` and `%` by zero give DivideByZero, a negative shift count
ShiftCountNegative (R77). Nothing is bounded here. -/
def BinaryOp.apply : BinaryOp → Int → Int → Except Err Int
  | .mul, a, b => .ok (a * b)
  | .div, a, b => if b = 0 then .error .divideByZero else .ok (fdiv a b)
  | .mod, a, b => if b = 0 then .error .divideByZero else .ok (fmod a b)
  | .add, a, b => .ok (a + b)
  | .sub, a, b => .ok (a - b)
  | .shl, a, b => if b < 0 then .error .shiftCountNegative else .ok (ishl a b.toNat)
  | .shr, a, b => if b < 0 then .error .shiftCountNegative else .ok (ishr a b.toNat)
  | .and, a, b => .ok (iand a b)
  | .xor, a, b => .ok (ixor a b)
  | .or, a, b => .ok (ior a b)

/-- The reference meaning `V(e)` in Z, or the first error in post-order, left operand first (R77). -/
def Expr.meaning : Expr → Except Err Int
  | .lit n => .ok n
  | .un u e =>
    match e.meaning with
    | .ok v => .ok (u.apply v)
    | .error x => .error x
  | .bin o l r =>
    match l.meaning with
    | .error x => .error x
    | .ok a =>
      match r.meaning with
      | .error x => .error x
      | .ok b => o.apply a b

/-! ## Translation to commands -/

/-- A literal's commands from the chunks of its base-`2^64` form, the highest first: `PUSH c_m`, then for each lower chunk
`PUSH 64`, `ESHL`, `PUSH c_j`, `EOR`; `m` is how many lower chunks there are (R78). -/
def literalChunks : Nat → Nat → List Instr
  | 0, n => [.push (BitVec.ofNat 64 n)]
  | m + 1, n => literalChunks m (n / 2 ^ 64) ++ [.push 64, .eshl, .push (BitVec.ofNat 64 n), .eor]

/-- A literal's commands: `PUSH L` below `2^64`, else the chunk sequence with `c_m != 0` (R78). -/
def literalCommands (n : Nat) : List Instr := literalChunks (n.log2 / 64) n

/-- The command of a unary operator (R79). -/
def UnaryOp.command : UnaryOp → Instr
  | .neg => .eneg
  | .not => .enot

/-- The command of a binary operator (R79). -/
def BinaryOp.command : BinaryOp → Instr
  | .mul => .emul
  | .div => .ediv
  | .mod => .emod
  | .add => .eadd
  | .sub => .esub
  | .shl => .eshl
  | .shr => .eshr
  | .and => .eand
  | .xor => .exor
  | .or => .eor

/-- The translation `T`, post-order (R80). -/
def Expr.commands : Expr → List Instr
  | .lit n => literalCommands n
  | .un u e => e.commands ++ [u.command]
  | .bin o l r => l.commands ++ r.commands ++ [o.command]

/-- `EBEGIN`, the translation, `COMMIT` (R80). -/
def Expr.evaluation (e : Expr) : List Instr := [.ebegin] ++ e.commands ++ [.commit]

/-- The stack entries the translation needs (R81). -/
def Expr.need : Expr → Nat
  | .lit n => if n < 2 ^ 64 then 1 else 2
  | .un _ e => e.need
  | .bin _ l r => max l.need (1 + r.need)

/-! ## Tokens -/

/-- The tokens of R72 and R73. -/
inductive Token where
  /-- a literal of the given value -/
  | lit (n : Nat)
  /-- `+` -/
  | plus
  /-- `-` -/
  | minus
  /-- `*` -/
  | star
  /-- `/` -/
  | slash
  /-- `%` -/
  | percent
  /-- `<<` -/
  | shl
  /-- `>>` -/
  | shr
  /-- `&` -/
  | amp
  /-- `^` -/
  | caret
  /-- `|` -/
  | bar
  /-- `~` -/
  | tilde
  /-- `(` -/
  | lparen
  /-- `)` -/
  | rparen
deriving DecidableEq, Repr

/-- Whitespace: U+0020 and U+0009 to U+000D (R71). -/
def isSpace (c : Char) : Bool := c.toNat == 0x20 || (decide (0x09 ≤ c.toNat) && decide (c.toNat ≤ 0x0D))

/-- A decimal digit, `[0-9]`. -/
def isDigit (c : Char) : Bool := decide (0x30 ≤ c.toNat) && decide (c.toNat ≤ 0x39)

/-- A character of a literal's run, `[0-9A-Za-z_]` (R73). -/
def isRunChar (c : Char) : Bool :=
  isDigit c || (decide (0x41 ≤ c.toNat) && decide (c.toNat ≤ 0x5A)) ||
    (decide (0x61 ≤ c.toNat) && decide (c.toNat ≤ 0x7A)) || c == '_'

/-- The value of a digit, hexadecimal digits in either case (R73). -/
def digitValue (c : Char) : Option Nat :=
  if isDigit c then some (c.toNat - 0x30)
  else if 0x41 ≤ c.toNat ∧ c.toNat ≤ 0x46 then some (c.toNat - 0x41 + 10)
  else if 0x61 ≤ c.toNat ∧ c.toNat ≤ 0x66 then some (c.toNat - 0x61 + 10)
  else none

/-- The value of a run of digits of a base, read on from `acc`; none if a character is no digit of the base. -/
def digitsValue (base acc : Nat) : List Char → Option Nat
  | [] => some acc
  | c :: cs =>
    match digitValue c with
    | some d => if d < base then digitsValue base (acc * base + d) cs else none
    | none => none

/-- The value of a non-empty run of digits of a base (R73: a literal has at least one digit after its base marker). -/
def numeral (base : Nat) (cs : List Char) : Option Nat :=
  if cs.isEmpty then none else digitsValue base 0 cs

/-- The base a marker character after a leading `0` announces, in either case (R73). -/
def markedBase (c : Char) : Option Nat :=
  if c = 'x' ∨ c = 'X' then some 16
  else if c = 'o' ∨ c = 'O' then some 8
  else if c = 'b' ∨ c = 'B' then some 2
  else none

/-- The value of a literal's whole run, in exactly one of the forms of R73. -/
def literalValue : List Char → Option Nat
  | c :: m :: ds =>
    match (if c = '0' then markedBase m else none) with
    | some base => numeral base ds
    | none => numeral 10 (c :: m :: ds)
  | cs => numeral 10 cs

/-- The one-character tokens of R72. -/
def charToken (c : Char) : Option Token :=
  if c = '+' then some .plus
  else if c = '-' then some .minus
  else if c = '*' then some .star
  else if c = '/' then some .slash
  else if c = '%' then some .percent
  else if c = '&' then some .amp
  else if c = '^' then some .caret
  else if c = '|' then some .bar
  else if c = '~' then some .tilde
  else if c = '(' then some .lparen
  else if c = ')' then some .rparen
  else none

/-- A token before the tokens of the rest of the text. -/
def consToken (t : Option Token) (ts : Option (List Token)) : Option (List Token) :=
  match t, ts with
  | some t, some ts => some (t :: ts)
  | _, _ => none

/-- The tokens of a literal's run that has ended, before the tokens of the rest; an empty run is no token. The run is
held with its last character first. -/
def endRun (run : List Char) (ts : Option (List Token)) : Option (List Token) :=
  if run.isEmpty then ts else consToken ((literalValue run.reverse).map Token.lit) ts

/-- The scan of R70 to R73, longest match, with the literal's run that is open. A character that is neither whitespace nor
part of a token is an unknown token; so is a lone `<` or `>`. -/
def scan : List Char → List Char → Option (List Token)
  | run, [] => endRun run (some [])
  | run, c :: cs =>
    if !run.isEmpty && isRunChar c then scan (c :: run) cs
    else endRun run <|
      if isDigit c then scan [c] cs
      else if isSpace c then scan [] cs
      else if c = '<' then
        match cs with
        | d :: ds => if d = '<' then consToken (some .shl) (scan [] ds) else none
        | [] => none
      else if c = '>' then
        match cs with
        | d :: ds => if d = '>' then consToken (some .shr) (scan [] ds) else none
        | [] => none
      else consToken (charToken c) (scan [] cs)

/-- The tokens of a text, or none for an unknown token or a malformed literal (R70 to R73). -/
def tokenize (text : List Char) : Option (List Token) := scan [] text

/-! ## The grammar (R74) -/

/-- The levels of the grammar, loosest first: `expr` 0, `xor` 1, `and` 2, `shift` 3, `add` 4, `mul` 5, `unary` 6. -/
abbrev Level := Nat

/-- The level of `unary` (R74). -/
def unaryLevel : Level := 6

/-- The binary operator a token is at a level of the grammar (R74). -/
def binaryAt : Level → Token → Option BinaryOp
  | 0, .bar => some .or
  | 1, .caret => some .xor
  | 2, .amp => some .and
  | 3, .shl => some .shl
  | 3, .shr => some .shr
  | 4, .plus => some .add
  | 4, .minus => some .sub
  | 5, .star => some .mul
  | 5, .slash => some .div
  | 5, .percent => some .mod
  | _, _ => none

/-- The unary operator a token is (R74). -/
def unaryOf : Token → Option UnaryOp
  | .minus => some .neg
  | .tilde => some .not
  | _ => none

/-- What the parser looks for: an expression of a level, or more operands of a level after a left operand. -/
inductive Goal where
  /-- an expression of this level -/
  | level (l : Level)
  /-- the operators of this level that follow the left operand `e` -/
  | tail (l : Level) (e : Expr)
deriving DecidableEq, Repr

/-- The recursive-descent parser of R74. It answers the expression and the tokens left over. The first argument bounds the
depth of the descent; `parse` gives it enough (DEDUCED, log entry 12). -/
def parseGoal : Nat → Goal → List Token → Option (Expr × List Token)
  | 0, _, _ => none
  | fuel + 1, .tail l e, ts =>
    match ts with
    | [] => some (e, [])
    | t :: rest =>
      match binaryAt l t with
      | none => some (e, t :: rest)
      | some o =>
        match parseGoal fuel (.level (l + 1)) rest with
        | some (r, rest') => parseGoal fuel (.tail l (.bin o e r)) rest'
        | none => none
  | fuel + 1, .level l, ts =>
    if l < unaryLevel then
      match parseGoal fuel (.level (l + 1)) ts with
      | some (e, rest) => parseGoal fuel (.tail l e) rest
      | none => none
    else
      match ts with
      | .lit n :: rest => some (.lit n, rest)
      | .lparen :: rest =>
        match parseGoal fuel (.level 0) rest with
        | some (e, .rparen :: rest') => some (e, rest')
        | _ => none
      | t :: rest =>
        match unaryOf t with
        | some u =>
          match parseGoal fuel (.level unaryLevel) rest with
          | some (e, rest') => some (.un u e, rest')
          | none => none
        | none => none
      | [] => none

/-- The expression of a token sequence; tokens left over are trailing garbage (R74). -/
def parse (ts : List Token) : Option Expr :=
  match parseGoal (8 * (ts.length + 1)) (.level 0) ts with
  | some (e, []) => some e
  | _ => none

/-- The grammar of R74 as a relation: the tokens derive the expression at the level; 7 is `primary`. A repetition
`( op next )*` is written with the left operand at the same level, which is left association. -/
inductive Derives : Level → List Token → Expr → Prop where
  /-- a literal is a `primary` -/
  | lit (n : Nat) : Derives 7 [.lit n] (.lit n)
  /-- a parenthesised `expr` is a `primary` -/
  | paren {ts : List Token} {e : Expr} : Derives 0 ts e → Derives 7 (.lparen :: (ts ++ [.rparen])) e
  /-- a `primary` is a `unary` -/
  | primary {ts : List Token} {e : Expr} : Derives 7 ts e → Derives 6 ts e
  /-- a unary operator before a `unary` is a `unary` -/
  | unary {t : Token} {u : UnaryOp} {ts : List Token} {e : Expr} :
      unaryOf t = some u → Derives 6 ts e → Derives 6 (t :: ts) (.un u e)
  /-- what the next tighter level derives, a binary level derives -/
  | up {l : Level} {ts : List Token} {e : Expr} : l < 6 → Derives (l + 1) ts e → Derives l ts e
  /-- a left operand of the level, an operator of the level, and a right operand of the next tighter level -/
  | binary {l : Level} {t : Token} {o : BinaryOp} {ts us : List Token} {e f : Expr} :
      binaryAt l t = some o → Derives l ts e → Derives (l + 1) us f → Derives l (ts ++ t :: us) (.bin o e f)

/-! ## The translator -/

/-- The expression a text means, or none where the host reports ParseError (R70 to R76). -/
def parseText (text : List Char) : Option Expr :=
  match tokenize text with
  | some ts => parse ts
  | none => none

/-- The commands `EVAL` issues for a text. The whole text is parsed before any command is issued, so a text with a syntax
error issues none (R76, R80). -/
def translate (text : List Char) : Option (List Instr) := (parseText text).map Expr.evaluation

end Sys2Proof.Machine
end

