-- ==== Sys2Proof/Machine/Assembler.lean ====
section
/-! DEFINITION. The assembler: one command a line (R60), and the pseudo-instructions (R61). It runs on the host. A line is
a list of characters; its details that R60 leaves open are the model's (DESIGN CHOICE, log entry 13). -/

namespace Sys2Proof.Machine

/-- What a line assembles to. -/
inductive Assembled where
  /-- the instructions it issues, in order -/
  | instrs (is : List Instr)
  /-- `EVAL` of a text outside the language: no command is issued and ParseError is reported (R61) -/
  | parseError
  /-- the assembler rejects the line: no such mnemonic, the wrong operands, or a value outside its field (R60) -/
  | rejected
deriving DecidableEq, Repr

/-- The whitespace at the start of a text left out. -/
def trimStart (cs : List Char) : List Char := cs.dropWhile isSpace

/-- The whitespace at both ends of a text left out. -/
def trim (cs : List Char) : List Char := (trimStart (trimStart cs).reverse).reverse

/-- A text cut at its commas, with the piece that is open. -/
def cutAtCommas : List Char → List Char → List (List Char)
  | piece, [] => [piece.reverse]
  | piece, c :: cs => if c = ',' then piece.reverse :: cutAtCommas [] cs else cutAtCommas (c :: piece) cs

/-- A number operand: decimal, or hexadecimal with a `0x` before it (R60). -/
def operandValue : List Char → Option Nat
  | '0' :: 'x' :: ds => numeral 16 ds
  | cs => numeral 10 cs

/-- All values of a list of operand texts, or none if one is no number. -/
def operandValues : List (List Char) → Option (List Nat)
  | [] => some []
  | t :: ts =>
    match operandValue (trim t), operandValues ts with
    | some v, some vs => some (v :: vs)
    | _, _ => none

/-- The number operands of a line, separated by commas; none at all where the text is blank. -/
def operands (cs : List Char) : Option (List Nat) :=
  if (trim cs).isEmpty then some [] else operandValues (cutAtCommas [] cs)

/-- An instruction with a 64-bit operand, `0 <= v <= 2^64 - 1` (R60). -/
def withWord (v : Nat) (mk : Word → Instr) : Option Instr :=
  if v < 2 ^ 64 then some (mk (BitVec.ofNat 64 v)) else none

/-- A Boolean operand, 0 or 1 (R60). -/
def boolOperand : Nat → Option Bool
  | 0 => some false
  | 1 => some true
  | _ => none

/-- The instruction of a mnemonic and its number operands, in the forms of R60 and the one-command pseudo-instructions of
R61, before the range check of its fields. -/
def instrOf (mnemonic : String) (ops : List Nat) : Option Instr :=
  match mnemonic, ops with
  | "SET", [v] => withWord v .set
  | "GET", [] => some .get
  | "GETB", [i] => some (.getb i)
  | "SETB", [i, on] => (boolOperand on).map (.setb i)
  | "RMASK", [l, h] => some (.rmask l h)
  | "EXTR", [l, h] => some (.extr l h)
  | "ZERO", [l, h] => some (.zero l h)
  | "ONE", [l, h] => some (.one l h)
  | "TOGL", [l, h] => some (.togl l h)
  | "SHL", [n] => some (.shl n)
  | "SHR", [n] => some (.shr n)
  | "EBEGIN", [] => some .ebegin
  | "PUSH", [v] => withWord v .push
  | "ENEG", [] => some .eneg
  | "ENOT", [] => some .enot
  | "EMUL", [] => some .emul
  | "EDIV", [] => some .ediv
  | "EMOD", [] => some .emod
  | "EADD", [] => some .eadd
  | "ESUB", [] => some .esub
  | "ESHL", [] => some .eshl
  | "ESHR", [] => some .eshr
  | "EAND", [] => some .eand
  | "EXOR", [] => some .exor
  | "EOR", [] => some .eor
  | "COMMIT", [] => some .commit
  | "RDRAW", [k] => some (.rdraw k)
  | "RDSTAT", [] => some .rdstat
  | "CLR", [] => some (.set 0)
  | "INV", [] => some (.togl 0 63)
  | "BSET", [i] => some (.setb i true)
  | "BCLR", [i] => some (.setb i false)
  | _, _ => none

/-- The text between the double quotes of an `EVAL` operand. -/
def quotedText (cs : List Char) : Option (List Char) :=
  match trim cs with
  | q :: rest =>
    match rest.reverse with
    | p :: inner => if q.toNat = 0x22 ∧ p.toNat = 0x22 then some inner.reverse else none
    | [] => none
  | [] => none

/-- `EVAL "text"`: the evaluation of the text, or the host's ParseError (R61). -/
def assembleEval (cs : List Char) : Assembled :=
  match quotedText cs with
  | none => .rejected
  | some text =>
    match translate text with
    | some is => .instrs is
    | none => .parseError

/-- A line: the mnemonic, then its operands (R60). A value outside its field is rejected. -/
def assembleLine (line : List Char) : Assembled :=
  let text := trim line
  let mnemonic := String.ofList (text.takeWhile (fun c => !isSpace c))
  let rest := text.dropWhile (fun c => !isSpace c)
  if mnemonic = "EVAL" then assembleEval rest
  else
    match operands rest with
    | none => .rejected
    | some ops =>
      match instrOf mnemonic ops with
      | some i => if i.wf then .instrs [i] else .rejected
      | none => .rejected

end Sys2Proof.Machine
end

