-- ==== Sys2Proof/Machine/Display.lean ====
section
/-! DEFINITION. The host's display formats (R90 to R94): pure functions of a value the host has read. The unit computes
none of them (R4). -/

namespace Sys2Proof.Machine

/-- The character of a digit, upper case for ten and above (R90). -/
def digitChar (d : Nat) : Char := Char.ofNat (if d < 10 then 0x30 + d else 0x41 + (d - 10))

/-- A number's digits in a base, most significant first, with no leading zeros beyond a single "0". The first argument
bounds how many digits there can be. -/
def digitsIn (base : Nat) : Nat → Nat → List Char
  | 0, v => [digitChar v]
  | fuel + 1, v => if v < base then [digitChar v] else digitsIn base fuel (v / base) ++ [digitChar (v % base)]

/-- A number in a base of at least 2. -/
def inBase (base v : Nat) : List Char := digitsIn base (v.log2 + 1) v

/-- `to_hex(v)`: base 16, upper case, unpadded, no base marker (R90). -/
def toHex (v : Word) : List Char := inBase 16 v.toNat

/-- `to_dec(v)`: base 10 (R91). -/
def toDec (v : Word) : List Char := inBase 10 v.toNat

/-- `to_oct(v)`: base 8, no base marker (R92). -/
def toOct (v : Word) : List Char := inBase 8 v.toNat

/-- `to_bin(v)`: base 2, no base marker (R93). -/
def toBin (v : Word) : List Char := inBase 2 v.toNat

/-- The display of the raw value: base 10, led by `-` when it is negative (R94). -/
def showRaw {cfg : Params} (raw : Entry cfg) : List Char :=
  if raw.toInt < 0 then '-' :: inBase 10 raw.toInt.natAbs else inBase 10 raw.toInt.natAbs

/-- How many chunks hold RAW: the host reads `RDRAW 0` to `RDRAW ceil(EVAL_WIDTH/64)-1` (R82). -/
def rawChunkCount (cfg : Params) : Nat := (cfg.evalWidth + 63) / 64

/-- Chunks joined to one unsigned number, the first lowest. -/
def joinChunks : List Word → Nat
  | [] => 0
  | d :: ds => d.toNat + 2 ^ 64 * joinChunks ds

/-- The raw value the host joins from the chunks, `RDRAW 0`'s first, read as a signed two's-complement number of 64 bits
a chunk (R82). -/
def joinRaw (chunks : List Word) : Int := (BitVec.ofNat (64 * chunks.length) (joinChunks chunks)).toInt

end Sys2Proof.Machine
end

