-- ==== Sys2Proof/Machine/Parameters.lean ====
section
/-! DEFINITION. The unit with any implementation parameters: the machine of R6, which takes EVAL_WIDTH, STACK_DEPTH and
LATENCY as arguments. Dispatch.lean and Step.lean hold it at the values of this hardware; the meanings are the same. -/

namespace Sys2Proof.Machine

/-- The meaning of every instruction at any parameters, in the order of the opcode map (R6, R54). -/
def execFor (cfg : Params) (i : Instr) (s : State cfg) : Result cfg :=
  match i with
  | .set v => execSet v s
  | .get => execGet s
  | .getb idx => execGetb idx s
  | .setb idx on => execSetb idx on s
  | .rmask a b => execRmask a b s
  | .extr a b => execExtr a b s
  | .zero a b => execZero a b s
  | .one a b => execOne a b s
  | .togl a b => execTogl a b s
  | .shl n => execShl n s
  | .shr n => execShr n s
  | .ebegin => execEbegin s
  | .push v => execPush v s
  | .eneg => execEneg s
  | .enot => execEnot s
  | .emul => execEmul s
  | .ediv => execEdiv s
  | .emod => execEmod s
  | .eadd => execEadd s
  | .esub => execEsub s
  | .eshl => execEshl s
  | .eshr => execEshr s
  | .eand => execEand s
  | .exor => execExor s
  | .eor => execEor s
  | .commit => execCommit s
  | .rdraw k => execRdraw k s
  | .rdstat => execRdstat s

/-- One step at any parameters. -/
def stepFor (cfg : Params) (s : State cfg) : Result cfg := takeStep (execFor cfg) s

/-- The unit with these parameters, in the form of the host's interface. -/
def unitFor (cfg : Params) : Host.Core where
  State := State cfg
  Fault := Fault
  Refusal := Refusal
  step := stepFor cfg
  reset := State.initial cfg

end Sys2Proof.Machine
end

