-- ==== Sys2Proof/Safety.lean ====
section
/-! DEFINITION. The terms the claims use: the invariant of the unit, what an observer of a run can see, and how a host runs
a sequence of commands and an evaluation. -/

namespace Sys2Proof

/-! ## Families -/

/-- The register commands: they read and write only VALUE (R32). -/
def Instr.isRegister : Instr → Bool
  | .set _ => true
  | .get => true
  | .getb _ => true
  | .setb _ _ => true
  | .rmask _ _ => true
  | .extr _ _ => true
  | .zero _ _ => true
  | .one _ _ => true
  | .togl _ _ => true
  | .shl _ => true
  | .shr _ => true
  | .ebegin => false
  | .push _ => false
  | .eneg => false
  | .enot => false
  | .emul => false
  | .ediv => false
  | .emod => false
  | .eadd => false
  | .esub => false
  | .eshl => false
  | .eshr => false
  | .eand => false
  | .exor => false
  | .eor => false
  | .commit => false
  | .rdraw _ => false
  | .rdstat => false

/-- The gated commands (R140). -/
def Instr.isGated : Instr → Bool
  | .set _ => false
  | .get => false
  | .getb _ => false
  | .setb _ _ => false
  | .rmask _ _ => false
  | .extr _ _ => false
  | .zero _ _ => false
  | .one _ _ => false
  | .togl _ _ => false
  | .shl _ => false
  | .shr _ => false
  | .ebegin => false
  | .push _ => true
  | .eneg => true
  | .enot => true
  | .emul => true
  | .ediv => true
  | .emod => true
  | .eadd => true
  | .esub => true
  | .eshl => true
  | .eshr => true
  | .eand => true
  | .exor => true
  | .eor => true
  | .commit => true
  | .rdraw _ => false
  | .rdstat => false

end Sys2Proof

namespace Sys2Proof.Machine

/-! ## The invariant -/

/-- The values EERR takes: 0 and the latched error codes 1, 2, 4, 5 and 6 (R26). -/
def eerrLegal (c : Code) : Bool := [0, 1, 2, 4, 5, 6].contains c

/-- A response the unit can return: a status of 0 to 7 (R201), and `dout = 0` whenever the command fails (R21, R200). -/
def responseLegal (r : Response) : Bool := decide (r.st.toNat ≤ 7) && (r.st == 0 || r.dout == 0)

/-- EERR and every response returned so far are legal. -/
def State.inv {cfg : Params} (s : State cfg) : Bool := eerrLegal s.eerr && s.responses.all responseLegal

/-- The evaluator is idle: `EDEPTH = 0` and `EERR = 0` (43_evaluator_control.md). -/
def State.idle {cfg : Params} (s : State cfg) : Bool := s.edepth.val == 0 && s.eerr == okCode

/-! ## Observation -/

/-- Two states that no command, now or later, and no observer of a run can tell apart: they differ at most in stack entries
at or above EDEPTH (R24, R235). -/
def SameObservable {cfg : Params} (s t : State cfg) : Prop :=
  s.value = t.value ∧ s.live = t.live ∧ s.eerr = t.eerr ∧ s.raw = t.raw ∧ s.inputs = t.inputs ∧
    s.responses = t.responses

/-! ## What a command does, as the statements say it -/

/-- The command changes no state and returns this response. -/
def Responds (i : Instr) (s : State) (st : Code) (dout : Word) : Prop := exec i s = .next (s.respond st dout)

/-- The command changes VALUE alone and returns `(0, 0)`. -/
def Writes (i : Instr) (s : State) (v : Word) : Prop :=
  exec i s = .next (({ s with value := v } : State).respond 0 0)

/-- The command ends in an evaluator error: the code is latched in EERR and returned, and nothing else changes (R141). -/
def FailsWith (i : Instr) (s : State) (e : Err) : Prop :=
  exec i s = .next (({ s with eerr := e.code } : State).respond e.code 0)

/-- The command leaves the live entries `pre` with one entry of value `r` on top, changes nothing else an observer can see,
and returns `(0, 0)`. -/
def LeavesOnTop (i : Instr) (s : State) (pre : List Entry) (r : Int) : Prop :=
  ∃ t x, exec i s = .next t ∧ x.toInt = r ∧ t.live = pre ++ [x] ∧ t.value = s.value ∧ t.raw = s.raw ∧
    t.eerr = s.eerr ∧ t.inputs = s.inputs ∧ t.responses = s.responses ++ [⟨0, 0⟩]

/-- The command succeeds: it answers `t` as the next state, with the response `(0, 0)`. -/
def Succeeds (i : Instr) (s t : State) : Prop :=
  exec i s = .next t ∧ t.responses = s.responses ++ [⟨0, 0⟩]

/-- Two entries have the same low 64 bits, `a & MASK64 = b & MASK64` (R12). -/
def SameLowBits (a b : Entry) : Prop := a.toInt % 2 ^ 64 = b.toInt % 2 ^ 64

/-- What every gated operator with this many operands does before its own function is asked: the sticky error first, then
the missing operand (R148). -/
def ChecksOperands (i : Instr) (operands : Nat) : Prop :=
  ∀ s : State, (s.eerr ≠ 0 → Responds i s s.eerr 0) ∧
    (s.eerr = 0 → s.edepth.val < operands → FailsWith i s .parseError)

/-- The range of a stack entry: `[-2^(EVAL_WIDTH-1), 2^(EVAL_WIDTH-1) - 1]`; on this hardware `[-2^127, 2^127 - 1]`
(R142). -/
abbrev InRange (v : Int) (cfg : Params := Config.thisHardware) : Prop :=
  -(2 ^ (cfg.evalWidth - 1)) ≤ v ∧ v ≤ 2 ^ (cfg.evalWidth - 1) - 1

/-- `q = floor(a / b)`: the greatest integer with `q * b <= a` when `b > 0`, and with `q * b >= a` when `b < 0` (R10). -/
def IsFloorQuotient (a b q : Int) : Prop :=
  (0 < b → q * b ≤ a ∧ a < (q + 1) * b) ∧ (b < 0 → a ≤ q * b ∧ (q + 1) * b < a)

/-! ## Runs -/

/-- `k` steps of the machine; the host's `Core.run` of this machine is the same function (`core_run_eq`). -/
def run : Nat → State → Result
  | 0, s => .next s
  | k + 1, s =>
    match step s with
    | .next t => run k t
    | .fault r => .fault r
    | .refused r => .refused r

/-- The run in which the host issues these instructions, encoded, from a state with nothing else presented (R235). -/
def runInstrs (is : List Instr) (s : State) : Result := run is.length (s.present (is.map encode))

/-! ## What the unit answers for an expression -/

/-- Every value the translation of the expression pushes fits `EVAL_WIDTH`, as far as the reference meaning gives the
values (R83). -/
def Expr.within (cfg : Params) : Expr → Bool
  | .lit n => fits cfg n
  | .un u e =>
    e.within cfg && match e.meaning with
      | .ok v => fits cfg (u.apply v)
      | .error _ => true
  | .bin o l r =>
    l.within cfg && r.within cfg && match (Expr.bin o l r).meaning with
      | .ok v => fits cfg v
      | .error _ => true

/-- The expression's value, or the code of the first command of its translation that fails, with `room` free stack entries
(R83): StackOverflow at the first PUSH without room, EvalOverflow at the first value that does not fit, or the
operator's own error, in post-order. -/
def Expr.bounded (cfg : Params) : Nat → Expr → Except Err Int
  | room, .lit n =>
    if room < (Expr.lit n).need then .error .stackOverflow
    else if fits cfg n then .ok n else .error .evalOverflow
  | room, .un u e =>
    match e.bounded cfg room with
    | .error x => .error x
    | .ok v => if fits cfg (u.apply v) then .ok (u.apply v) else .error .evalOverflow
  | room, .bin o l r =>
    match l.bounded cfg room with
    | .error x => .error x
    | .ok a =>
      match r.bounded cfg (room - 1) with
      | .error x => .error x
      | .ok b =>
        match o.apply a b with
        | .error x => .error x
        | .ok v => if fits cfg v then .ok v else .error .evalOverflow

end Sys2Proof.Machine
end

