-- ==== Sys2Proof/Laws/State.lean ====
section
/-! SUPPORT. What each update of State does to each field, true by definition, so that no later proof unfolds a record
update. -/

namespace Sys2Proof.Machine

variable {cfg : Params}

variable (s : State cfg)

/-! ### respond -/

@[simp] theorem State.respond_value (st : Code) (dout : Word) :
    (s.respond st dout).value = s.value := rfl

@[simp] theorem State.respond_estack (st : Code) (dout : Word) :
    (s.respond st dout).estack = s.estack := rfl

@[simp] theorem State.respond_edepth (st : Code) (dout : Word) :
    (s.respond st dout).edepth = s.edepth := rfl

@[simp] theorem State.respond_eerr (st : Code) (dout : Word) :
    (s.respond st dout).eerr = s.eerr := rfl

@[simp] theorem State.respond_raw (st : Code) (dout : Word) :
    (s.respond st dout).raw = s.raw := rfl

@[simp] theorem State.respond_inputs (st : Code) (dout : Word) :
    (s.respond st dout).inputs = s.inputs := rfl

@[simp] theorem State.respond_responses (st : Code) (dout : Word) :
    (s.respond st dout).responses = s.responses ++ [⟨st, dout⟩] := rfl

/-! ### latch -/

@[simp] theorem State.latch_value (e : Err) :
    (s.latch e).value = s.value := rfl

@[simp] theorem State.latch_estack (e : Err) :
    (s.latch e).estack = s.estack := rfl

@[simp] theorem State.latch_edepth (e : Err) :
    (s.latch e).edepth = s.edepth := rfl

@[simp] theorem State.latch_eerr (e : Err) :
    (s.latch e).eerr = e.code := rfl

@[simp] theorem State.latch_raw (e : Err) :
    (s.latch e).raw = s.raw := rfl

@[simp] theorem State.latch_inputs (e : Err) :
    (s.latch e).inputs = s.inputs := rfl

@[simp] theorem State.latch_responses (e : Err) :
    (s.latch e).responses = s.responses := rfl

/-! ### setValue -/

@[simp] theorem State.setValue_value {w : Nat} (v : BitVec w) :
    (s.setValue v).value = v.setWidth 64 := rfl

@[simp] theorem State.setValue_estack {w : Nat} (v : BitVec w) :
    (s.setValue v).estack = s.estack := rfl

@[simp] theorem State.setValue_edepth {w : Nat} (v : BitVec w) :
    (s.setValue v).edepth = s.edepth := rfl

@[simp] theorem State.setValue_eerr {w : Nat} (v : BitVec w) :
    (s.setValue v).eerr = s.eerr := rfl

@[simp] theorem State.setValue_raw {w : Nat} (v : BitVec w) :
    (s.setValue v).raw = s.raw := rfl

@[simp] theorem State.setValue_inputs {w : Nat} (v : BitVec w) :
    (s.setValue v).inputs = s.inputs := rfl

@[simp] theorem State.setValue_responses {w : Nat} (v : BitVec w) :
    (s.setValue v).responses = s.responses := rfl

/-! ### setRaw -/

@[simp] theorem State.setRaw_value (v : Entry cfg) :
    (s.setRaw v).value = s.value := rfl

@[simp] theorem State.setRaw_estack (v : Entry cfg) :
    (s.setRaw v).estack = s.estack := rfl

@[simp] theorem State.setRaw_edepth (v : Entry cfg) :
    (s.setRaw v).edepth = s.edepth := rfl

@[simp] theorem State.setRaw_eerr (v : Entry cfg) :
    (s.setRaw v).eerr = s.eerr := rfl

@[simp] theorem State.setRaw_raw (v : Entry cfg) :
    (s.setRaw v).raw = v := rfl

@[simp] theorem State.setRaw_inputs (v : Entry cfg) :
    (s.setRaw v).inputs = s.inputs := rfl

@[simp] theorem State.setRaw_responses (v : Entry cfg) :
    (s.setRaw v).responses = s.responses := rfl

/-! ### emptyStack -/

@[simp] theorem State.emptyStack_value :
    (s.emptyStack).value = s.value := rfl

@[simp] theorem State.emptyStack_estack :
    (s.emptyStack).estack = s.estack := rfl

@[simp] theorem State.emptyStack_edepth :
    (s.emptyStack).edepth = 0 := rfl

@[simp] theorem State.emptyStack_eerr :
    (s.emptyStack).eerr = s.eerr := rfl

@[simp] theorem State.emptyStack_raw :
    (s.emptyStack).raw = s.raw := rfl

@[simp] theorem State.emptyStack_inputs :
    (s.emptyStack).inputs = s.inputs := rfl

@[simp] theorem State.emptyStack_responses :
    (s.emptyStack).responses = s.responses := rfl

/-! ### clearError -/

@[simp] theorem State.clearError_value :
    (s.clearError).value = s.value := rfl

@[simp] theorem State.clearError_estack :
    (s.clearError).estack = s.estack := rfl

@[simp] theorem State.clearError_edepth :
    (s.clearError).edepth = s.edepth := rfl

@[simp] theorem State.clearError_eerr :
    (s.clearError).eerr = okCode := rfl

@[simp] theorem State.clearError_raw :
    (s.clearError).raw = s.raw := rfl

@[simp] theorem State.clearError_inputs :
    (s.clearError).inputs = s.inputs := rfl

@[simp] theorem State.clearError_responses :
    (s.clearError).responses = s.responses := rfl

/-! ### push -/

@[simp] theorem State.push_value (v : Entry cfg) (room : s.edepth.val < cfg.stackDepth) :
    (s.push v room).value = s.value := rfl

@[simp] theorem State.push_estack (v : Entry cfg) (room : s.edepth.val < cfg.stackDepth) :
    (s.push v room).estack = s.estack.set s.edepth.val v room := rfl

@[simp] theorem State.push_eerr (v : Entry cfg) (room : s.edepth.val < cfg.stackDepth) :
    (s.push v room).eerr = s.eerr := rfl

@[simp] theorem State.push_raw (v : Entry cfg) (room : s.edepth.val < cfg.stackDepth) :
    (s.push v room).raw = s.raw := rfl

@[simp] theorem State.push_inputs (v : Entry cfg) (room : s.edepth.val < cfg.stackDepth) :
    (s.push v room).inputs = s.inputs := rfl

@[simp] theorem State.push_responses (v : Entry cfg) (room : s.edepth.val < cfg.stackDepth) :
    (s.push v room).responses = s.responses := rfl

/-! ### replaceTop -/

@[simp] theorem State.replaceTop_value (x : Entry cfg) (live : 0 < s.edepth.val) :
    (s.replaceTop x live).value = s.value := rfl

@[simp] theorem State.replaceTop_edepth (x : Entry cfg) (live : 0 < s.edepth.val) :
    (s.replaceTop x live).edepth = s.edepth := rfl

@[simp] theorem State.replaceTop_eerr (x : Entry cfg) (live : 0 < s.edepth.val) :
    (s.replaceTop x live).eerr = s.eerr := rfl

@[simp] theorem State.replaceTop_raw (x : Entry cfg) (live : 0 < s.edepth.val) :
    (s.replaceTop x live).raw = s.raw := rfl

@[simp] theorem State.replaceTop_inputs (x : Entry cfg) (live : 0 < s.edepth.val) :
    (s.replaceTop x live).inputs = s.inputs := rfl

@[simp] theorem State.replaceTop_responses (x : Entry cfg) (live : 0 < s.edepth.val) :
    (s.replaceTop x live).responses = s.responses := rfl

/-! ### replaceTopTwo -/

@[simp] theorem State.replaceTopTwo_value (x : Entry cfg) (live : 1 < s.edepth.val) :
    (s.replaceTopTwo x live).value = s.value := rfl

@[simp] theorem State.replaceTopTwo_eerr (x : Entry cfg) (live : 1 < s.edepth.val) :
    (s.replaceTopTwo x live).eerr = s.eerr := rfl

@[simp] theorem State.replaceTopTwo_raw (x : Entry cfg) (live : 1 < s.edepth.val) :
    (s.replaceTopTwo x live).raw = s.raw := rfl

@[simp] theorem State.replaceTopTwo_inputs (x : Entry cfg) (live : 1 < s.edepth.val) :
    (s.replaceTopTwo x live).inputs = s.inputs := rfl

@[simp] theorem State.replaceTopTwo_responses (x : Entry cfg) (live : 1 < s.edepth.val) :
    (s.replaceTopTwo x live).responses = s.responses := rfl

/-! ### presentNext -/

@[simp] theorem State.presentNext_value (i : Input) :
    (s.presentNext i).value = s.value := rfl

@[simp] theorem State.presentNext_estack (i : Input) :
    (s.presentNext i).estack = s.estack := rfl

@[simp] theorem State.presentNext_edepth (i : Input) :
    (s.presentNext i).edepth = s.edepth := rfl

@[simp] theorem State.presentNext_eerr (i : Input) :
    (s.presentNext i).eerr = s.eerr := rfl

@[simp] theorem State.presentNext_raw (i : Input) :
    (s.presentNext i).raw = s.raw := rfl

@[simp] theorem State.presentNext_inputs (i : Input) :
    (s.presentNext i).inputs = i :: s.inputs := rfl

@[simp] theorem State.presentNext_responses (i : Input) :
    (s.presentNext i).responses = s.responses := rfl

/-! ### present -/

@[simp] theorem State.present_value (cs : List Command) :
    (s.present cs).value = s.value := rfl

@[simp] theorem State.present_estack (cs : List Command) :
    (s.present cs).estack = s.estack := rfl

@[simp] theorem State.present_edepth (cs : List Command) :
    (s.present cs).edepth = s.edepth := rfl

@[simp] theorem State.present_eerr (cs : List Command) :
    (s.present cs).eerr = s.eerr := rfl

@[simp] theorem State.present_raw (cs : List Command) :
    (s.present cs).raw = s.raw := rfl

@[simp] theorem State.present_inputs (cs : List Command) :
    (s.present cs).inputs = s.inputs ++ cs.map Input.command := rfl

@[simp] theorem State.present_responses (cs : List Command) :
    (s.present cs).responses = s.responses := rfl

/-- Pushing raises EDEPTH by one. -/
@[simp] theorem State.push_edepth_val (v : Entry cfg) (room : s.edepth.val < cfg.stackDepth) :
    (s.push v room).edepth.val = s.edepth.val + 1 := rfl

/-- A binary operator lowers EDEPTH by one. -/
@[simp] theorem State.replaceTopTwo_edepth_val (x : Entry cfg) (live : 1 < s.edepth.val) :
    (s.replaceTopTwo x live).edepth.val = s.edepth.val - 1 := rfl

/-! ### The state after reset (R33) -/

@[simp] theorem State.initial_value (cfg : Params) : (State.initial cfg).value = 0 := rfl

@[simp] theorem State.initial_edepth (cfg : Params) : (State.initial cfg).edepth = 0 := rfl

@[simp] theorem State.initial_eerr (cfg : Params) : (State.initial cfg).eerr = 0 := rfl

@[simp] theorem State.initial_raw (cfg : Params) : (State.initial cfg).raw = 0 := rfl

@[simp] theorem State.initial_inputs (cfg : Params) : (State.initial cfg).inputs = [] := rfl

@[simp] theorem State.initial_responses (cfg : Params) : (State.initial cfg).responses = [] := rfl

@[simp] theorem State.reset_value : State.reset.value = 0 := rfl

@[simp] theorem State.reset_edepth : State.reset.edepth = 0 := rfl

@[simp] theorem State.reset_eerr : State.reset.eerr = 0 := rfl

@[simp] theorem State.reset_raw : State.reset.raw = 0 := rfl

@[simp] theorem State.reset_inputs : State.reset.inputs = [] := rfl

@[simp] theorem State.reset_responses : State.reset.responses = [] := rfl

/-- Two states with equal fields are equal. -/
@[ext] theorem State.eq_of_fields {s t : State cfg} (h1 : s.value = t.value) (h2 : s.estack = t.estack)
    (h3 : s.edepth = t.edepth) (h4 : s.eerr = t.eerr) (h5 : s.raw = t.raw) (h6 : s.inputs = t.inputs)
    (h7 : s.responses = t.responses) : s = t := by
  cases s; cases t; simp_all

end Sys2Proof.Machine
end

