-- ==== Sys2Proof/Laws/Ops.lean ====
section
/-! SUPPORT. What each shared operation can do, said once: the live entries of the stack, error gating, the operator
procedures and the checks of the register commands. Later proofs cite these and do not unfold the operations. -/

namespace Sys2Proof.Machine

variable {cfg : Params}

/-! ## The live entries -/

/-- EDEPTH is the number of live entries (R24). -/
@[simp] theorem State.live_length (s : State cfg) : s.live.length = s.edepth.val := by
  have := s.edepth.isLt
  simp [State.live]; omega

/-- EDEPTH fits RDSTAT's field many times over: it is at most `STACK_DEPTH` (R24). -/
theorem State.edepth_le (s : State cfg) : s.edepth.val ≤ cfg.stackDepth := Nat.le_of_lt_succ s.edepth.isLt

theorem State.live_eq_of_stack {s t : State cfg} (h1 : t.estack = s.estack) (h2 : t.edepth = s.edepth) :
    t.live = s.live := by
  simp [State.live, h1, h2]

@[simp] theorem State.respond_live (s : State cfg) (st : Code) (dout : Word) : (s.respond st dout).live = s.live := rfl

@[simp] theorem State.latch_live (s : State cfg) (e : Err) : (s.latch e).live = s.live := rfl

@[simp] theorem State.setValue_live {w : Nat} (s : State cfg) (v : BitVec w) : (s.setValue v).live = s.live := rfl

@[simp] theorem State.setRaw_live (s : State cfg) (v : Entry cfg) : (s.setRaw v).live = s.live := rfl

@[simp] theorem State.clearError_live (s : State cfg) : s.clearError.live = s.live := rfl

@[simp] theorem State.emptyStack_live (s : State cfg) : s.emptyStack.live = [] := by
  simp [State.live]

@[simp] theorem State.present_live (s : State cfg) (cs : List Command) : (s.present cs).live = s.live := rfl

/-- `push(v)` adds one live entry on top (R141). -/
@[simp] theorem State.push_live (s : State cfg) (v : Entry cfg) (room : s.edepth.val < cfg.stackDepth) :
    (s.push v room).live = s.live ++ [v] := by
  have h : s.edepth.val < s.estack.toList.length := by simpa using room
  simp only [State.live, State.push_estack, State.push_edepth_val, Vector.toList_set]
  rw [List.take_add_one, List.take_set_of_le (Nat.le_refl _), List.getElem?_set_self h]
  rfl

theorem State.fromTop_eq_live (s : State cfg) (k : Nat) (h : k < s.edepth.val) :
    s.live[s.edepth.val - 1 - k]? = some (s.fromTop k h) := by
  have hd := s.edepth.isLt
  have h1 : s.edepth.val - 1 - k < s.edepth.val := by omega
  simp only [State.live, List.getElem?_take, h1, if_true, State.fromTop]
  rw [List.getElem?_eq_getElem (by simp; omega)]
  simp

/-- With a live entry on top, the top is that entry, and writing it replaces that entry alone. -/
theorem State.live_one {s : State cfg} {pre : List (Entry cfg)} {a : Entry cfg} (h : s.live = pre ++ [a]) :
    ∃ live : 0 < s.edepth.val, s.top live = a ∧ ∀ x, (s.replaceTop x live).live = pre ++ [x] := by
  have hlen : s.edepth.val = pre.length + 1 := by rw [← s.live_length, h]; simp
  refine ⟨by omega, ?_, fun x => ?_⟩
  · have := s.fromTop_eq_live 0 (by omega)
    rw [h] at this
    simpa [hlen, State.top] using this.symm
  · have e : (s.replaceTop x (by omega)).live = s.live.set (s.edepth.val - 1) x := by
      simp only [State.live, State.replaceTop, Vector.toList_set, List.take_set]
    rw [e, h, hlen]
    simp

/-- With two live entries on top, `second()` and `top()` are they, and a binary operator's result replaces the two
(R141, R148). -/
theorem State.live_two {s : State cfg} {pre : List (Entry cfg)} {a b : Entry cfg} (h : s.live = pre ++ [a, b]) :
    ∃ live : 1 < s.edepth.val, s.second live = a ∧ s.top (Nat.lt_of_succ_lt live) = b ∧
      ∀ x, (s.replaceTopTwo x live).live = pre ++ [x] := by
  have hlen : s.edepth.val = pre.length + 2 := by rw [← s.live_length, h]; simp
  refine ⟨by omega, ?_, ?_, fun x => ?_⟩
  · have := s.fromTop_eq_live 1 (by omega)
    rw [h] at this
    simpa [hlen, State.second] using this.symm
  · have := s.fromTop_eq_live 0 (by omega)
    rw [h] at this
    simpa [hlen, State.top] using this.symm
  · have e : (s.replaceTopTwo x (by omega)).live = (s.live.set (s.edepth.val - 2) x).take (s.edepth.val - 1) := by
      simp only [State.live, State.replaceTopTwo, Vector.toList_set]
      rw [← List.take_set, List.take_take]
      congr 1; omega
    rw [e, h, hlen]
    simp [List.take_append]

/-- A stack with a live entry has one on top. -/
theorem State.exists_live_one {s : State cfg} (h : 0 < s.edepth.val) : ∃ pre a, s.live = pre ++ [a] := by
  have : s.live ≠ [] := by
    intro e; have := s.live_length; rw [e] at this; simp at this; omega
  exact ⟨_, _, (List.dropLast_append_getLast this).symm⟩

/-- A stack with two live entries has two on top. -/
theorem State.exists_live_two {s : State cfg} (h : 1 < s.edepth.val) : ∃ pre a b, s.live = pre ++ [a, b] := by
  obtain ⟨pre, b, e⟩ := s.exists_live_one (by omega)
  have hp : pre ≠ [] := by
    intro e'; have := s.live_length; rw [e, e'] at this; simp at this; omega
  refine ⟨pre.dropLast, pre.getLast hp, b, ?_⟩
  rw [e]
  conv_lhs => rw [← List.dropLast_append_getLast hp]
  simp

/-! ## Error gating (R140) -/

/-- With no sticky error a gated command runs. -/
theorem gated_run {s : State cfg} {run : State cfg → Result cfg} (h : s.eerr = 0) : gated s run = run s := by
  simp [gated, okCode, h]

/-- With a sticky error a gated command responds with it and changes no state. -/
theorem gated_blocked {s : State cfg} {run : State cfg → Result cfg} (h : s.eerr ≠ 0) :
    gated s run = .next (s.respond s.eerr 0) := by
  rw [gated, if_neg (by simpa [okCode] using h)]; rfl

/-! ## The operator procedures (R148) -/

/-- Where an operator procedure ends: the operator's error, the stored result, or EvalOverflow. -/
theorem finishOperator_cases (x : Except Err Int) (s : State cfg) (store : Entry cfg → State cfg) :
    (∃ e, x = .error e ∧ finishOperator x s store = .next ((s.latch e).respond e.code 0)) ∨
    (∃ r, x = .ok r ∧ fits cfg r = true ∧
      finishOperator x s store = .next ((store (BitVec.ofInt cfg.evalWidth r)).respond 0 0)) ∨
    (∃ r, x = .ok r ∧ fits cfg r = false ∧
      finishOperator x s store = .next ((s.latch .evalOverflow).respond Err.evalOverflow.code 0)) := by
  cases x with
  | error e => exact .inl ⟨e, rfl, rfl⟩
  | ok r =>
    cases h : fits cfg r
    · exact .inr (.inr ⟨r, rfl, h, by simp [finishOperator, h, efail, respond]⟩)
    · exact .inr (.inl ⟨r, rfl, h, by simp [finishOperator, h, respond, okCode]⟩)

/-- Everything `unop(f)` can do. -/
theorem unop_cases (f : Int → Except Err Int) (s : State cfg) :
    (s.eerr ≠ 0 ∧ unop f s = .next (s.respond s.eerr 0)) ∨
    (s.eerr = 0 ∧ s.edepth.val = 0 ∧ unop f s = .next ((s.latch .parseError).respond Err.parseError.code 0)) ∨
    (s.eerr = 0 ∧ ∃ live : 0 < s.edepth.val,
      unop f s = finishOperator (f (s.top live).toInt) s (fun x => s.replaceTop x live)) := by
  by_cases h : s.eerr = 0
  · by_cases live : 0 < s.edepth.val
    · exact .inr (.inr ⟨h, live, by rw [unop, gated_run h, dif_pos live]⟩)
    · exact .inr (.inl ⟨h, by omega, by rw [unop, gated_run h, dif_neg live]; rfl⟩)
  · exact .inl ⟨h, gated_blocked h⟩

/-- Everything `binop(f)` can do. -/
theorem binop_cases (f : Int → Int → Except Err Int) (s : State cfg) :
    (s.eerr ≠ 0 ∧ binop f s = .next (s.respond s.eerr 0)) ∨
    (s.eerr = 0 ∧ s.edepth.val < 2 ∧ binop f s = .next ((s.latch .parseError).respond Err.parseError.code 0)) ∨
    (s.eerr = 0 ∧ ∃ live : 1 < s.edepth.val,
      binop f s = finishOperator (f (s.second live).toInt (s.top (Nat.lt_of_succ_lt live)).toInt) s
        (fun x => s.replaceTopTwo x live)) := by
  by_cases h : s.eerr = 0
  · by_cases live : 1 < s.edepth.val
    · exact .inr (.inr ⟨h, live, by rw [binop, gated_run h, dif_pos live]⟩)
    · exact .inr (.inl ⟨h, by omega, by rw [binop, gated_run h, dif_neg live]; rfl⟩)
  · exact .inl ⟨h, gated_blocked h⟩

/-- `unop(f)` on a live top entry, with no sticky error. -/
theorem unop_live {f : Int → Except Err Int} {s : State cfg} {pre : List (Entry cfg)} {a : Entry cfg} (h0 : s.eerr = 0)
    (h : s.live = pre ++ [a]) :
    ∃ store : Entry cfg → State cfg, unop f s = finishOperator (f a.toInt) s store ∧
      ∀ x, (store x).live = pre ++ [x] ∧ (store x).value = s.value ∧ (store x).raw = s.raw ∧
        (store x).eerr = s.eerr ∧ (store x).inputs = s.inputs ∧ (store x).responses = s.responses := by
  obtain ⟨live, ht, hx⟩ := State.live_one h
  refine ⟨fun x => s.replaceTop x live, ?_, fun x => ⟨hx x, rfl, rfl, rfl, rfl, rfl⟩⟩
  rw [unop, gated_run h0, dif_pos live, ht]

/-- `binop(f)` on two live top entries, with no sticky error. -/
theorem binop_live {f : Int → Int → Except Err Int} {s : State cfg} {pre : List (Entry cfg)} {a b : Entry cfg} (h0 : s.eerr = 0)
    (h : s.live = pre ++ [a, b]) :
    ∃ store : Entry cfg → State cfg, binop f s = finishOperator (f a.toInt b.toInt) s store ∧
      ∀ x, (store x).live = pre ++ [x] ∧ (store x).value = s.value ∧ (store x).raw = s.raw ∧
        (store x).eerr = s.eerr ∧ (store x).inputs = s.inputs ∧ (store x).responses = s.responses := by
  obtain ⟨live, h2, ht, hx⟩ := State.live_two h
  refine ⟨fun x => s.replaceTopTwo x live, ?_, fun x => ⟨hx x, rfl, rfl, rfl, rfl, rfl⟩⟩
  rw [binop, gated_run h0, dif_pos live, h2, ht]

/-! ## The register commands' shared operations -/

/-- `respond` answers a next state with one more response and nothing else changed. -/
theorem respond_eq (st : Code) (dout : Word) (s : State cfg) : respond st dout s = .next (s.respond st dout) := rfl

/-- `raise E` changes no state and responds `(code(E), 0)` (R200). -/
theorem raise_eq (e : Err) (s : State cfg) : raise e s = .next (s.respond e.code 0) := rfl

/-- `efail(code)` latches the code and responds `(code, 0)` (R141). -/
theorem efail_eq (e : Err) (s : State cfg) : efail e s = .next ((s.latch e).respond e.code 0) := rfl

/-- A register write answers `(0, 0)` and changes VALUE alone. -/
theorem writeValue_eq (v : Word) (s : State cfg) : writeValue v s = .next ((s.setValue v).respond 0 0) := rfl

/-- A bit index up to 63 passes the check; a larger one raises RangeViolation (R100). -/
theorem withIndex_cases (i : Nat) (s : State cfg) (run : State cfg → Result cfg) :
    (i ≤ 63 ∧ withIndex i s run = run s) ∨
    (63 < i ∧ withIndex i s run = .next (s.respond Err.rangeViolation.code 0)) := by
  by_cases h : i ≤ 63
  · exact .inl ⟨h, by simp [withIndex, indexOk, h]⟩
  · exact .inr ⟨by omega, by simp [withIndex, indexOk, h, raise, respond]⟩

/-- Two bounds up to 63 pass the check; otherwise the command raises RangeViolation (R110). -/
theorem withRange_cases (a b : Nat) (s : State cfg) (run : State cfg → Result cfg) :
    ((a ≤ 63 ∧ b ≤ 63) ∧ withRange a b s run = run s) ∨
    ((63 < a ∨ 63 < b) ∧ withRange a b s run = .next (s.respond Err.rangeViolation.code 0)) := by
  by_cases h : a ≤ 63 ∧ b ≤ 63
  · exact .inl ⟨h, by simp [withRange, rangeOk, indexOk, h.1, h.2]⟩
  · refine .inr ⟨by omega, ?_⟩
    have : rangeOk a b = false := by
      simp only [rangeOk, indexOk, Bool.and_eq_false_iff, decide_eq_false_iff_not]; omega
    simp [withRange, this, raise, respond]

end Sys2Proof.Machine
end

