-- ==== Sys2Proof/Laws/Operands.lean ====
section
/-! SUPPORT. What the operand forms and the integer operations compute, each said once: the width check, the range masks
bit by bit, floor division, the shift count, and the bitwise operations bit by bit. -/

namespace Sys2Proof.Machine

variable {cfg : Params}

/-! ## The width check (R142) -/

/-- The range a value must lie in to be pushed (R142). -/
theorem fits_iff_inRange (v : Int) : fits cfg v = true ↔ InRange v cfg := by
  simp [fits, InRange]

/-- The range of this hardware in numbers. -/
theorem fits_iff (v : Int) : fits Config.thisHardware v = true ↔
    -170141183460469231731687303715884105728 ≤ v ∧ v ≤ 170141183460469231731687303715884105727 := by
  rw [fits_iff_inRange, InRange]; norm_num

/-- Half of the values of an entry are negative. -/
theorem two_pow_evalWidth (cfg : Params) : (2 : Int) ^ cfg.evalWidth = 2 * 2 ^ (cfg.evalWidth - 1) := by
  have h := cfg.evalWidth_ge
  rw [← pow_succ', Nat.sub_add_cancel (by omega)]

/-- Every 64-bit unsigned number lies far within the range, because `EVAL_WIDTH >= 65` (R6, R142). -/
theorem two_pow_64_le (cfg : Params) : (2 : Int) ^ 64 ≤ 2 ^ (cfg.evalWidth - 1) :=
  pow_le_pow_right₀ (by norm_num) (by have h := cfg.evalWidth_ge; omega)

/-- A 64-bit unsigned number and its negation fit (R6). -/
theorem fits_word (v : Word) : fits cfg v.toNat = true ∧ fits cfg (-v.toNat) = true := by
  have h1 := two_pow_64_le cfg
  have h2 : (v.toNat : Int) < 2 ^ 64 := by exact_mod_cast v.isLt
  simp only [fits_iff_inRange, InRange]
  omega

/-- A stack entry fits. -/
theorem fits_toInt (a : Entry cfg) : fits cfg a.toInt = true := by
  have h1 := BitVec.le_toInt a
  have h2 := BitVec.toInt_lt (x := a)
  rw [fits_iff_inRange, InRange]
  omega

/-- A value that fits is held exactly. -/
theorem toInt_ofInt_of_fits {v : Int} (h : fits cfg v = true) : (BitVec.ofInt cfg.evalWidth v).toInt = v := by
  rw [fits_iff_inRange, InRange] at h
  have hp := two_pow_evalWidth cfg
  rw [BitVec.toInt_ofInt]
  apply Int.bmod_eq_of_le <;> push_cast <;> omega

/-- A pushed literal is held exactly, and is never negative (R145). -/
theorem toInt_setWidth_word (v : Word) : (v.setWidth cfg.evalWidth).toInt = (v.toNat : Int) := by
  have h := cfg.evalWidth_ge
  have h1 : (v.setWidth cfg.evalWidth).toNat = v.toNat := by
    rw [BitVec.toNat_setWidth]
    exact Nat.mod_eq_of_lt (lt_of_lt_of_le v.isLt (Nat.pow_le_pow_right (by norm_num) (by omega)))
  have h2 : 2 * v.toNat < 2 ^ cfg.evalWidth := by
    have : 2 ^ 65 ≤ 2 ^ cfg.evalWidth := Nat.pow_le_pow_right (by norm_num) h
    have := v.isLt
    omega
  rw [BitVec.toInt_eq_toNat_of_lt (by rw [h1]; exact h2), h1]

/-! ## Floor division (R10) -/

/-- `fdiv(a, b)` for `b > 0`: the greatest `q` with `q * b <= a`. -/
theorem fdiv_pos {a b : Int} (h : 0 < b) : fdiv a b * b ≤ a ∧ a < (fdiv a b + 1) * b := by
  rw [fdiv, Int.fdiv_eq_ediv_of_nonneg a h.le]
  exact ⟨Int.ediv_mul_le a h.ne', Int.lt_ediv_add_one_mul_self a h⟩

/-- `fdiv(a, b)` for `b < 0`: the greatest `q` with `q * b >= a`. -/
theorem fdiv_neg {a b : Int} (h : b < 0) : a ≤ fdiv a b * b ∧ (fdiv a b + 1) * b < a := by
  have h' : 0 < -b := by omega
  have h1 := Int.ediv_mul_le (-a) h'.ne'
  have h2 := Int.lt_ediv_add_one_mul_self (-a) h'
  rw [fdiv, ← Int.neg_fdiv_neg, Int.fdiv_eq_ediv_of_nonneg _ h'.le]
  constructor <;> nlinarith

/-- `fmod(a, b)` is the remainder of floor division, in Lean's own function. -/
theorem fmod_eq (a b : Int) : fmod a b = Int.fmod a b := by
  have h1 := Int.fmod_add_mul_fdiv a b
  rw [fmod, fdiv]; omega

/-! ## Range masks (R13, R111) -/

/-- The generator's block of `n` accumulated bits. -/
theorem maskBlock_eq (n : Nat) : maskBlock n = 2 ^ n - 1 := by
  induction n with
  | zero => rfl
  | succ n ih =>
    have hp := Nat.one_le_two_pow (n := n)
    rw [maskBlock, ih, ← Nat.shiftLeft_add_eq_or_of_lt (by norm_num), Nat.shiftLeft_eq]
    omega

/-- The range mask's bits are exactly the range (R13, R116). -/
theorem rmask_getLsbD {l h j : Nat} (hl : l ≤ h) (hh : h ≤ 63) :
    (rmask l h).getLsbD j = (decide (l ≤ j) && decide (j ≤ h)) := by
  rw [rmask, BitVec.getLsbD_ofNat, Nat.testBit_shiftLeft, Nat.testBit_two_pow_sub_one, ← Bool.decide_and,
    ← Bool.decide_and, ← Bool.decide_and, decide_eq_decide]
  omega

/-- The range-mask generator computes R13's mask of the normalised bounds (R111). -/
theorem generatedMask_eq (a b : Nat) : generatedMask a b = rangeMask a b := by
  rw [generatedMask, maskBlock_eq]; rfl

/-- A range command's mask, bit by bit. -/
theorem rangeMask_getLsbD {a b j : Nat} (ha : a ≤ 63) (hb : b ≤ 63) :
    (rangeMask a b).getLsbD j = (decide (min a b ≤ j) && decide (j ≤ max a b)) :=
  rmask_getLsbD (l := rangeLo a b) (h := rangeHi a b) (by simp [rangeLo, rangeHi]) (by simp [rangeHi]; omega)

/-- The order of the two bounds does not matter (R117). -/
theorem rangeMask_comm (a b : Nat) : rangeMask a b = rangeMask b a := by
  simp [rangeMask, rangeLo, rangeHi, Nat.min_comm, Nat.max_comm]

/-- The single-bit mask's only bit. -/
theorem bitMask_getLsbD {i j : Nat} : (bitMask i).getLsbD j = (decide (j < 64) && decide (j = i)) := by
  rw [bitMask, BitVec.getLsbD_ofNat, Nat.one_shiftLeft, Nat.testBit_two_pow]
  simp [eq_comm]

/-- Every bit of `MASK64` is set. -/
theorem mask64_getLsbD {j : Nat} : mask64.getLsbD j = decide (j < 64) := by
  rw [show mask64 = BitVec.allOnes 64 from rfl, BitVec.getLsbD_allOnes]

/-! ## Register shifts (R131, R132) -/

/-- The left shift is exact in Z and then masked, for every amount. -/
theorem shiftedLeft_toNat (v : Word) (n : Nat) : (shiftedLeft v n).toNat = v.toNat * 2 ^ n % 2 ^ 64 := by
  rw [shiftedLeft]
  split
  · next h =>
    have : (2 : Nat) ^ 64 ∣ v.toNat * 2 ^ n := Dvd.dvd.mul_left (pow_dvd_pow 2 h) _
    rw [Nat.mod_eq_zero_of_dvd this]; rfl
  · rw [BitVec.toNat_shiftLeft, Nat.shiftLeft_eq]

/-- The right shift is the floor of the quotient, for every amount. -/
theorem shiftedRight_toNat (v : Word) (n : Nat) : (shiftedRight v n).toNat = v.toNat / 2 ^ n := by
  rw [shiftedRight]
  split
  · next h =>
    have h1 : v.toNat < 2 ^ n := lt_of_lt_of_le v.isLt (Nat.pow_le_pow_right (by norm_num) h)
    rw [Nat.div_eq_of_lt h1]; rfl
  · rw [BitVec.toNat_ushiftRight, Nat.shiftRight_eq_div_pow]

/-! ## The bits of an integer (R11) -/

theorem ibit_ofNat (m k : Nat) : ibit (.ofNat m) k = ((m.testBit k).toNat : Int) := by
  rw [Nat.toNat_testBit, ibit, fmod_eq, fdiv, Int.fmod_eq_emod_of_nonneg _ (by norm_num),
    Int.fdiv_eq_ediv_of_nonneg _ (by positivity)]
  simp

theorem ibit_negSucc (m k : Nat) : ibit (.negSucc m) k = 1 - ((m.testBit k).toNat : Int) := by
  have hp : (0 : Int) < ((2 ^ k : Nat) : Int) := by positivity
  rw [Nat.toNat_testBit, ibit, fmod_eq, fdiv, Int.fmod_eq_emod_of_nonneg _ (by norm_num),
    Int.fdiv_eq_ediv_of_nonneg _ hp.le, Int.negSucc_ediv _ hp]
  have : (m : Int).ediv ((2 ^ k : Nat) : Int) = ((m / 2 ^ k : Nat) : Int) := by
    rw [Int.natCast_ediv]; rfl
  rw [this]
  omega

/-- Every integer is one of the two forms the bitwise operations work on. -/
theorem int_forms (a : Int) : (∃ m, a = .ofNat m) ∨ ∃ m, a = .negSucc m := by
  cases a with
  | ofNat m => exact .inl ⟨m, rfl⟩
  | negSucc m => exact .inr ⟨m, rfl⟩

/-- Bit `k` of `a & b` is the AND of the bits (R11). -/
theorem ibit_iand (a b : Int) (k : Nat) : ibit (iand a b) k = ibit a k * ibit b k := by
  cases a <;> cases b <;> simp only [iand, ibit_ofNat, ibit_negSucc, Nat.testBit_and, Nat.testBit_or, Nat.testBit_xor] <;>
    cases Nat.testBit _ k <;> cases Nat.testBit _ k <;> rfl

/-- Bit `k` of `a | b` is the OR of the bits (R11). -/
theorem ibit_ior (a b : Int) (k : Nat) : ibit (ior a b) k = max (ibit a k) (ibit b k) := by
  cases a <;> cases b <;> simp only [ior, ibit_ofNat, ibit_negSucc, Nat.testBit_and, Nat.testBit_or, Nat.testBit_xor] <;>
    cases Nat.testBit _ k <;> cases Nat.testBit _ k <;> rfl

/-- Bit `k` of `a ^ b` is the XOR of the bits (R11). -/
theorem ibit_ixor (a b : Int) (k : Nat) : ibit (ixor a b) k = (ibit a k + ibit b k) % 2 := by
  cases a <;> cases b <;> simp only [ixor, ibit_ofNat, ibit_negSucc, Nat.testBit_xor] <;>
    cases Nat.testBit _ k <;> cases Nat.testBit _ k <;> rfl

/-! ## The shift count (R167, R168) -/

/-- From `EVAL_WIDTH` on, a power of two is at least twice the range's end. -/
theorem two_pow_evalWidth_le {n : Nat} (h : cfg.evalWidth ≤ n) :
    (2 : Int) * 2 ^ (cfg.evalWidth - 1) ≤ ((2 ^ n : Nat) : Int) := by
  rw [← two_pow_evalWidth]
  exact_mod_cast Nat.pow_le_pow_right (by norm_num) h

/-- Left shifts: the count in use and the exact count agree on whether an entry's shift fits, and on the value where it
does. -/
theorem ishl_shiftCount {a b : Int} :
    fits cfg (ishl a (shiftCount cfg b)) = fits cfg (ishl a b.toNat) ∧
      (fits cfg (ishl a b.toNat) = true → ishl a (shiftCount cfg b) = ishl a b.toNat) := by
  by_cases h : b.toNat ≤ cfg.evalWidth
  · simp [shiftCount, Nat.min_eq_left h]
  · by_cases ha : a = 0
    · simp [ishl, ha]
    · have big : ∀ n, cfg.evalWidth ≤ n → fits cfg (ishl a n) = false := by
        intro n hn
        rw [Bool.eq_false_iff, ne_eq, fits_iff_inRange, InRange, ishl]
        have h1 := two_pow_evalWidth_le hn
        have h0 := two_pow_64_le cfg
        rcases lt_or_gt_of_ne ha with h2 | h2
        · have : a * ((2 ^ n : Nat) : Int) ≤ -1 * (2 * 2 ^ (cfg.evalWidth - 1)) := by nlinarith
          omega
        · have : 1 * (2 * 2 ^ (cfg.evalWidth - 1)) ≤ a * ((2 ^ n : Nat) : Int) := by nlinarith
          omega
      rw [shiftCount, Nat.min_eq_right (by omega), big _ le_rfl, big _ (by omega)]
      simp

/-- Right shifts of an entry: the count in use and the exact count give the same value. -/
theorem ishr_shiftCount {a b : Int} (ha : fits cfg a = true) : ishr a (shiftCount cfg b) = ishr a b.toNat := by
  by_cases h : b.toNat ≤ cfg.evalWidth
  · simp [shiftCount, Nat.min_eq_left h]
  · rw [fits_iff_inRange, InRange] at ha
    have far : ∀ n, cfg.evalWidth ≤ n → ishr a n = if 0 ≤ a then 0 else -1 := by
      intro n hn
      have h1 := two_pow_evalWidth_le hn
      have h0 := two_pow_64_le cfg
      have hp : (0 : Int) < ((2 ^ n : Nat) : Int) := by positivity
      obtain ⟨h2, h3⟩ := fdiv_pos (a := a) hp
      rw [ishr]
      generalize fdiv a ((2 ^ n : Nat) : Int) = q at *
      generalize ((2 ^ n : Nat) : Int) = p at *
      generalize (2 : Int) ^ (cfg.evalWidth - 1) = half at *
      split
      · have : q < 1 := by by_contra hc; nlinarith
        have : -1 < q := by by_contra hc; nlinarith
        omega
      · have : q < 0 := by by_contra hc; nlinarith
        have : -2 < q := by by_contra hc; nlinarith
        omega
    rw [shiftCount, Nat.min_eq_right (by omega), far _ le_rfl, far _ (by omega)]

end Sys2Proof.Machine
end

