-- ==== Sys2Proof/Laws/Encoding.lean ====
section
/-! SUPPORT. The fields of an assembled command word, and which row of the opcode map it selects. -/

namespace Sys2Proof

/-- The word of R51 with its parts as numbers, for masks: `wordOf` with an arbitrary RSV part. -/
def partsWord (opc a b : Field8) (rsv : BitVec 7) (on : Bool) : CmdWord :=
  opc ++ a ++ b ++ rsv ++ BitVec.ofBool on

/-- Masking a word masks each field. -/
theorem wordOf_and (opc a b mo ma mb : Field8) (mr : BitVec 7) (on mn : Bool) :
    wordOf opc a b on &&& partsWord mo ma mb mr mn = wordOf (opc &&& mo) (a &&& ma) (b &&& mb) (on && mn) := by
  rw [wordOf, partsWord, wordOf, BitVec.and_append, BitVec.and_append, BitVec.and_append, BitVec.and_append]
  simp [BitVec.ofBool_and_ofBool]

/-- An assembled word, bit by bit (R51). -/
theorem wordOf_getLsbD (opc a b : Field8) (on : Bool) (j : Nat) :
    (wordOf opc a b on).getLsbD j =
      if j < 1 then on else if j < 8 then false else if j < 16 then b.getLsbD (j - 8)
        else if j < 24 then a.getLsbD (j - 16) else opc.getLsbD (j - 24) := by
  simp only [wordOf, BitVec.getLsbD_append, BitVec.getLsbD_ofBool]
  by_cases h1 : j < 1
  · simp [show j = 0 by omega]
  · by_cases h2 : j < 8
    · rw [if_neg h1, if_pos (by omega), if_neg h1, if_pos h2]; simp
    · rw [if_neg h1, if_neg (by omega), if_neg h1, if_neg h2]
      simp only [show j - 1 - 7 = j - 8 by omega, show j - 8 - 8 = j - 16 by omega, show j - 16 - 8 = j - 24 by omega,
        show (j - 8 < 8) = (j < 16) by simp; omega, show (j - 16 < 8) = (j < 24) by simp; omega]

/-- The fields of an assembled word (R51). -/
theorem opcField_wordOf (opc a b : Field8) (on : Bool) : opcField (wordOf opc a b on) = opc := by
  apply BitVec.eq_of_getLsbD_eq
  intro i hi
  rw [opcField, BitVec.getLsbD_extractLsb', wordOf_getLsbD, if_neg (by omega), if_neg (by omega), if_neg (by omega),
    if_neg (by omega)]
  simp [hi]

theorem aField_wordOf (opc a b : Field8) (on : Bool) : aField (wordOf opc a b on) = a.toNat := by
  rw [aField]
  congr 1
  apply BitVec.eq_of_getLsbD_eq
  intro i hi
  rw [BitVec.getLsbD_extractLsb', wordOf_getLsbD, if_neg (by omega), if_neg (by omega), if_neg (by omega),
    if_pos (by omega)]
  simp [hi]

theorem bField_wordOf (opc a b : Field8) (on : Bool) : bField (wordOf opc a b on) = b.toNat := by
  rw [bField]
  congr 1
  apply BitVec.eq_of_getLsbD_eq
  intro i hi
  rw [BitVec.getLsbD_extractLsb', wordOf_getLsbD, if_neg (by omega), if_neg (by omega), if_pos (by omega)]
  simp [hi]

theorem onField_wordOf (opc a b : Field8) (on : Bool) : onField (wordOf opc a b on) = on := by
  rw [onField, wordOf_getLsbD, if_pos (by omega)]

/-- A number that fits the field is the field's value. -/
theorem fieldOf_toNat {n : Nat} (h : fitsIndexField n = true) : (fieldOf n).toNat = n := by
  have h' : n < 256 := of_decide_eq_true h
  simp [fieldOf]; omega

/-- An amount that fits `op[31:0]` is read back. -/
theorem amountField_ofNat {n : Nat} (h : fitsAmountField n = true) : amountField (BitVec.ofNat 64 n) = n := by
  have h' : n < 4294967296 := of_decide_eq_true h
  simp [amountField, BitVec.extractLsb'_toNat]; omega

/-- A row's selection test on an assembled word, with the mask in its parts. -/
theorem selects_wordOf {r : Row} {opc a b mo ma mb : Field8} {mr : BitVec 7} {on mn : Bool}
    (hm : r.mask = partsWord mo ma mb mr mn)
    (hp : wordOf (opc &&& mo) (a &&& ma) (b &&& mb) (on && mn) = r.pattern) : r.selects (wordOf opc a b on) = true := by
  rw [Row.selects, hm, wordOf_and, hp]; exact beq_self_eq_true _

end Sys2Proof
end

