-- ==== Sys2Proof/Laws/PerInstr.lean ====
section
/-! SUPPORT. The per-instruction family EncodingSelected: the command of a well-formed instruction selects a row of the
opcode map, and that row reads the instruction back. -/

namespace Sys2Proof.Laws.EncodingSelected

/-- Some row of the opcode map selects the instruction's command word and reads the instruction back from the command. -/
def Statement (i : Instr) : Prop :=
  i.wf = true → ∃ r ∈ rows, r.selects (encode i).cw = true ∧ r.make (encode i).cw (encode i).op = i

theorem set (v : Word) : Statement (.set v) :=
  fun _ => ⟨rows[0], by simp [rows, registerRows, evaluatorRows],
    (by decide : rows[0].selects (plainWord 0x01) = true), rfl⟩

theorem get : Statement .get :=
  fun _ => ⟨rows[1], by simp [rows, registerRows, evaluatorRows], by decide, rfl⟩

theorem getb (i : Nat) : Statement (.getb i) :=
  fun h => ⟨rows[2], by simp [rows, registerRows, evaluatorRows],
    selects_wordOf (mo := 0xFF) (ma := 0) (mb := 0xFF) (mr := 0x7F) (mn := true) rfl (by simp; rfl),
    congrArg Instr.getb ((aField_wordOf _ _ _ _).trans (fieldOf_toNat h))⟩

theorem setb (i : Nat) (on : Bool) : Statement (.setb i on) :=
  fun h => ⟨rows[3], by simp [rows, registerRows, evaluatorRows],
    selects_wordOf (mo := 0xFF) (ma := 0) (mb := 0xFF) (mr := 0x7F) (mn := false) rfl (by simp; rfl),
    congrArg₂ Instr.setb ((aField_wordOf _ _ _ _).trans (fieldOf_toNat h)) (onField_wordOf _ _ _ _)⟩

theorem rmask (a b : Nat) : Statement (.rmask a b) :=
  fun h => ⟨rows[4], by simp [rows, registerRows, evaluatorRows],
    selects_wordOf (mo := 0xFF) (ma := 0) (mb := 0) (mr := 0x7F) (mn := true) rfl (by simp; rfl),
    congrArg₂ Instr.rmask ((aField_wordOf _ _ _ _).trans (fieldOf_toNat (Bool.and_eq_true_iff.mp h).1))
      ((bField_wordOf _ _ _ _).trans (fieldOf_toNat (Bool.and_eq_true_iff.mp h).2))⟩

theorem extr (a b : Nat) : Statement (.extr a b) :=
  fun h => ⟨rows[5], by simp [rows, registerRows, evaluatorRows],
    selects_wordOf (mo := 0xFF) (ma := 0) (mb := 0) (mr := 0x7F) (mn := true) rfl (by simp; rfl),
    congrArg₂ Instr.extr ((aField_wordOf _ _ _ _).trans (fieldOf_toNat (Bool.and_eq_true_iff.mp h).1))
      ((bField_wordOf _ _ _ _).trans (fieldOf_toNat (Bool.and_eq_true_iff.mp h).2))⟩

theorem zero (a b : Nat) : Statement (.zero a b) :=
  fun h => ⟨rows[6], by simp [rows, registerRows, evaluatorRows],
    selects_wordOf (mo := 0xFF) (ma := 0) (mb := 0) (mr := 0x7F) (mn := true) rfl (by simp; rfl),
    congrArg₂ Instr.zero ((aField_wordOf _ _ _ _).trans (fieldOf_toNat (Bool.and_eq_true_iff.mp h).1))
      ((bField_wordOf _ _ _ _).trans (fieldOf_toNat (Bool.and_eq_true_iff.mp h).2))⟩

theorem one (a b : Nat) : Statement (.one a b) :=
  fun h => ⟨rows[7], by simp [rows, registerRows, evaluatorRows],
    selects_wordOf (mo := 0xFF) (ma := 0) (mb := 0) (mr := 0x7F) (mn := true) rfl (by simp; rfl),
    congrArg₂ Instr.one ((aField_wordOf _ _ _ _).trans (fieldOf_toNat (Bool.and_eq_true_iff.mp h).1))
      ((bField_wordOf _ _ _ _).trans (fieldOf_toNat (Bool.and_eq_true_iff.mp h).2))⟩

theorem togl (a b : Nat) : Statement (.togl a b) :=
  fun h => ⟨rows[8], by simp [rows, registerRows, evaluatorRows],
    selects_wordOf (mo := 0xFF) (ma := 0) (mb := 0) (mr := 0x7F) (mn := true) rfl (by simp; rfl),
    congrArg₂ Instr.togl ((aField_wordOf _ _ _ _).trans (fieldOf_toNat (Bool.and_eq_true_iff.mp h).1))
      ((bField_wordOf _ _ _ _).trans (fieldOf_toNat (Bool.and_eq_true_iff.mp h).2))⟩

theorem shl (n : Nat) : Statement (.shl n) :=
  fun h => ⟨rows[9], by simp [rows, registerRows, evaluatorRows],
    (by decide : rows[9].selects (plainWord 0x0A) = true),
    congrArg Instr.shl (amountField_ofNat h)⟩

theorem shr (n : Nat) : Statement (.shr n) :=
  fun h => ⟨rows[10], by simp [rows, registerRows, evaluatorRows],
    (by decide : rows[10].selects (plainWord 0x0B) = true),
    congrArg Instr.shr (amountField_ofNat h)⟩

theorem ebegin : Statement .ebegin :=
  fun _ => ⟨rows[11], by simp [rows, registerRows, evaluatorRows], by decide, rfl⟩

theorem push (v : Word) : Statement (.push v) :=
  fun _ => ⟨rows[12], by simp [rows, registerRows, evaluatorRows],
    (by decide : rows[12].selects (plainWord 0x21) = true), rfl⟩

theorem eneg : Statement .eneg :=
  fun _ => ⟨rows[13], by simp [rows, registerRows, evaluatorRows], by decide, rfl⟩

theorem enot : Statement .enot :=
  fun _ => ⟨rows[14], by simp [rows, registerRows, evaluatorRows], by decide, rfl⟩

theorem emul : Statement .emul :=
  fun _ => ⟨rows[15], by simp [rows, registerRows, evaluatorRows], by decide, rfl⟩

theorem ediv : Statement .ediv :=
  fun _ => ⟨rows[16], by simp [rows, registerRows, evaluatorRows], by decide, rfl⟩

theorem emod : Statement .emod :=
  fun _ => ⟨rows[17], by simp [rows, registerRows, evaluatorRows], by decide, rfl⟩

theorem eadd : Statement .eadd :=
  fun _ => ⟨rows[18], by simp [rows, registerRows, evaluatorRows], by decide, rfl⟩

theorem esub : Statement .esub :=
  fun _ => ⟨rows[19], by simp [rows, registerRows, evaluatorRows], by decide, rfl⟩

theorem eshl : Statement .eshl :=
  fun _ => ⟨rows[20], by simp [rows, registerRows, evaluatorRows], by decide, rfl⟩

theorem eshr : Statement .eshr :=
  fun _ => ⟨rows[21], by simp [rows, registerRows, evaluatorRows], by decide, rfl⟩

theorem eand : Statement .eand :=
  fun _ => ⟨rows[22], by simp [rows, registerRows, evaluatorRows], by decide, rfl⟩

theorem exor : Statement .exor :=
  fun _ => ⟨rows[23], by simp [rows, registerRows, evaluatorRows], by decide, rfl⟩

theorem eor : Statement .eor :=
  fun _ => ⟨rows[24], by simp [rows, registerRows, evaluatorRows], by decide, rfl⟩

theorem commit : Statement .commit :=
  fun _ => ⟨rows[25], by simp [rows, registerRows, evaluatorRows], by decide, rfl⟩

theorem rdraw (k : Nat) : Statement (.rdraw k) :=
  fun h => ⟨rows[26], by simp [rows, registerRows, evaluatorRows],
    selects_wordOf (mo := 0xFF) (ma := 0) (mb := 0xFF) (mr := 0x7F) (mn := true) rfl (by simp; rfl),
    congrArg Instr.rdraw ((aField_wordOf _ _ _ _).trans (fieldOf_toNat h))⟩

theorem rdstat : Statement .rdstat :=
  fun _ => ⟨rows[27], by simp [rows, registerRows, evaluatorRows], by decide, rfl⟩

end Sys2Proof.Laws.EncodingSelected
end

