-- ==== Sys2Proof/Laws/Step.lean ====
section
/-! SUPPORT. What one step can do, said once, and how runs unfold. -/

namespace Sys2Proof.Machine

variable {cfg : Params}

/-- Taking the next input removes it from the port and changes nothing else. -/
theorem takeInput_some {s t : State cfg} {i : Input} (h : s.takeInput = some (i, t)) :
    s.inputs = i :: t.inputs ∧ t.value = s.value ∧ t.estack = s.estack ∧ t.edepth = s.edepth ∧ t.eerr = s.eerr ∧
      t.raw = s.raw ∧ t.responses = s.responses := by
  unfold State.takeInput at h
  split at h
  · cases h
  · next e => cases h; exact ⟨e, rfl, rfl, rfl, rfl, rfl, rfl⟩

/-- Everything one step can do, whatever the instructions mean: wait, reset, run the decoded instruction, or refuse an
illegal command. -/
theorem takeStep_cases (run : Instr → State cfg → Result cfg) (s : State cfg) :
    (s.inputs = [] ∧ takeStep run s = .next s) ∨
    (∃ cut rest, s.inputs = .reset cut :: rest ∧
      takeStep run s = .next { State.initial cfg with inputs := rest, responses := s.responses }) ∨
    (∃ c i rest, s.inputs = .command c :: rest ∧ decode c = .ok i ∧
      takeStep run s = run i { s with inputs := rest }) ∨
    (∃ c why rest, s.inputs = .command c :: rest ∧ decode c = .error why ∧
      takeStep run s = .next (({ s with inputs := rest } : State cfg).respond Err.illegalCommand.code 0)) := by
  cases h : s.inputs with
  | nil => exact .inl ⟨rfl, by simp [takeStep, State.takeInput, h, waitForCommand]⟩
  | cons i rest =>
    cases i with
    | reset cut => exact .inr (.inl ⟨cut, rest, rfl, by simp [takeStep, State.takeInput, h, resetUnit]⟩)
    | command c =>
      cases hd : decode c with
      | ok i => exact .inr (.inr (.inl ⟨c, i, rest, rfl, hd, by simp [takeStep, State.takeInput, h, hd]⟩))
      | error why =>
        exact .inr (.inr (.inr ⟨c, why, rest, rfl, hd, by
          simp [takeStep, State.takeInput, h, hd, illegalCommand, raise, respond]⟩))

/-- Everything one step of this hardware can do. -/
theorem step_cases (s : State) :
    (s.inputs = [] ∧ step s = .next s) ∨
    (∃ cut rest, s.inputs = .reset cut :: rest ∧
      step s = .next { State.reset with inputs := rest, responses := s.responses }) ∨
    (∃ c i rest, s.inputs = .command c :: rest ∧ decode c = .ok i ∧ step s = exec i { s with inputs := rest }) ∨
    (∃ c why rest, s.inputs = .command c :: rest ∧ decode c = .error why ∧
      step s = .next (({ s with inputs := rest } : State).respond Err.illegalCommand.code 0)) :=
  takeStep_cases exec s

/-- At the values of this hardware every instruction's meaning for any parameters is the dispatched one (R6). -/
theorem execFor_thisHardware (i : Instr) (s : State) : execFor Config.thisHardware i s = exec i s := by
  cases i <;> rfl

/-- The unit at the values of this hardware is the machine (R6). -/
theorem unitFor_thisHardware : unitFor Config.thisHardware = Sys2Proof.core := by
  have h : execFor Config.thisHardware = exec := funext fun i => funext fun s => execFor_thisHardware i s
  simp only [unitFor, Sys2Proof.core, State.reset]
  congr 1

/-- A table word's command, presented next, is what the next step runs. -/
theorem withFetchWord_inputs (s : State) (nbits w : Nat) :
    (s.withFetchWord nbits w).inputs = .command (commandOfTableWord nbits w) :: s.inputs := rfl

/-- A run of no steps stays where it is. -/
@[simp] theorem run_zero (s : State) : run 0 s = .next s := rfl

/-- A run takes one step and goes on from the next state. -/
theorem run_succ {s t : State} (k : Nat) (h : step s = .next t) : run (k + 1) s = run k t := by
  rw [run, h]

/-- A run stops at a refusal. -/
theorem run_refused {s : State} {r : Refusal} (k : Nat) (h : step s = .refused r) : run (k + 1) s = .refused r := by
  rw [run, h]

/-- Runs compose. -/
theorem run_add {s t : State} (j k : Nat) (h : run j s = .next t) : run (j + k) s = run k t := by
  induction j generalizing s with
  | zero => cases h; simp
  | succ j ih =>
    cases hs : step s with
    | next u =>
      rw [run_succ j hs] at h
      rw [Nat.add_right_comm, run_succ _ hs, ih h]
    | fault r => cases r
    | refused r =>
      rw [run, hs] at h; cases h

/-- A machine's run is any function that starts and goes on as its steps say. -/
theorem core_run_unique (M : Host.Core) (g : Nat → M.State → Host.Outcome M.State M.Fault M.Refusal)
    (h0 : ∀ s, g 0 s = .next s) (h1 : ∀ k s t, M.step s = .next t → g (k + 1) s = g k t)
    (h2 : ∀ k s r, M.step s = .fault r → g (k + 1) s = .fault r)
    (h3 : ∀ k s r, M.step s = .refused r → g (k + 1) s = .refused r) (k : Nat) (s : M.State) : M.run k s = g k s := by
  induction k generalizing s with
  | zero => rw [h0]; rfl
  | succ k ih =>
    rw [Host.Core.run]
    cases h : M.step s with
    | next t => rw [h1 k s t h]; exact ih t
    | fault r => rw [h2 k s r h]
    | refused r => rw [h3 k s r h]

/-- The host's run of this machine is `run`. -/
theorem core_run_eq (k : Nat) (s : State) : Host.Core.run Sys2Proof.core k s = run k s :=
  core_run_unique Sys2Proof.core run (fun _ => rfl) (fun k _ _ h => run_succ k h) (fun _ _ r _ => nomatch r)
    (fun k _ _ h => run_refused k h) k s

end Sys2Proof.Machine
end

