-- ==== Sys2Proof/Laws/Meanings.lean ====
section
/-! SUPPORT. Each instruction's meaning in the shared operations, one lemma per instruction, so that a proof about an
instruction cites one lemma and then the operations' own. -/

namespace Sys2Proof.Machine

variable (s : State)

theorem exec_set (v : Word) : exec (.set v) s = .next ((s.setValue v).respond 0 0) := rfl

theorem exec_get : exec .get s = .next (s.respond 0 s.value) := rfl

theorem exec_getb (i : Nat) :
    exec (.getb i) s = withIndex i s (fun s => respond okCode ((s.value >>> i) &&& 1) s) := rfl

theorem exec_setb (i : Nat) (on : Bool) :
    exec (.setb i on) s = withIndex i s (fun s =>
      writeValue (if on then s.value ||| bitMask i else s.value &&& (mask64 ^^^ bitMask i)) s) := rfl

theorem exec_rmask (a b : Nat) :
    exec (.rmask a b) s = withRange a b s (fun s => respond okCode (rangeMask a b) s) := by
  rw [← generatedMask_eq]; rfl

theorem exec_extr (a b : Nat) :
    exec (.extr a b) s = withRange a b s (fun s => writeValue ((s.value &&& rangeMask a b) >>> rangeLo a b) s) := rfl

theorem exec_zero (a b : Nat) :
    exec (.zero a b) s = withRange a b s (fun s => writeValue (s.value &&& (mask64 ^^^ rangeMask a b)) s) := rfl

theorem exec_one (a b : Nat) :
    exec (.one a b) s = withRange a b s (fun s => writeValue (s.value ||| rangeMask a b) s) := rfl

theorem exec_togl (a b : Nat) :
    exec (.togl a b) s = withRange a b s (fun s => writeValue (s.value ^^^ rangeMask a b) s) := rfl

theorem exec_shl (n : Nat) : exec (.shl n) s = .next ((s.setValue (shiftedLeft s.value n)).respond 0 0) := rfl

theorem exec_shr (n : Nat) : exec (.shr n) s = .next ((s.setValue (shiftedRight s.value n)).respond 0 0) := rfl

theorem exec_ebegin : exec .ebegin s = .next (s.emptyStack.clearError.respond 0 0) := rfl

theorem exec_eneg : exec .eneg s = unop (fun a => .ok (-a)) s := rfl

theorem exec_enot : exec .enot s = unop (fun a => .ok (inot a)) s := rfl

theorem exec_emul : exec .emul s = binop (fun a b => .ok (a * b)) s := rfl

theorem exec_ediv : exec .ediv s = binop aluDiv s := rfl

theorem exec_emod : exec .emod s = binop aluMod s := rfl

theorem exec_eadd : exec .eadd s = binop (fun a b => .ok (a + b)) s := rfl

theorem exec_esub : exec .esub s = binop (fun a b => .ok (a - b)) s := rfl

theorem exec_eshl : exec .eshl s = binop (aluShl Config.thisHardware) s := rfl

theorem exec_eshr : exec .eshr s = binop (aluShr Config.thisHardware) s := rfl

theorem exec_eand : exec .eand s = binop (fun a b => .ok (iand a b)) s := rfl

theorem exec_exor : exec .exor s = binop (fun a b => .ok (ixor a b)) s := rfl

theorem exec_eor : exec .eor s = binop (fun a b => .ok (ior a b)) s := rfl

theorem exec_rdraw (k : Nat) : exec (.rdraw k) s = .next (s.respond 0 (rawChunk s.raw k)) := rfl

theorem exec_rdstat : exec .rdstat s = .next (s.respond 0 (statusWord s)) := rfl

/-- Everything PUSH can do, at any parameters (R145). -/
theorem execPush_cases {cfg : Params} (s : State cfg) (v : Word) :
    (s.eerr ≠ 0 ∧ execPush v s = .next (s.respond s.eerr 0)) ∨
    (s.eerr = 0 ∧ s.edepth.val = cfg.stackDepth ∧
      execPush v s = .next ((s.latch .stackOverflow).respond Err.stackOverflow.code 0)) ∨
    (s.eerr = 0 ∧ ∃ room : s.edepth.val < cfg.stackDepth,
      execPush v s = .next ((s.push (v.setWidth cfg.evalWidth) room).respond 0 0)) := by
  by_cases h : s.eerr = 0
  · by_cases room : s.edepth.val < cfg.stackDepth
    · exact .inr (.inr ⟨h, room, by rw [execPush, gated_run h, dif_pos room]; rfl⟩)
    · exact .inr (.inl ⟨h, Nat.le_antisymm s.edepth_le (Nat.le_of_not_lt room), by
        rw [execPush, gated_run h, dif_neg room]; rfl⟩)
  · exact .inl ⟨h, gated_blocked h⟩

/-- Everything COMMIT can do, at any parameters (R146). -/
theorem execCommit_cases {cfg : Params} (s : State cfg) :
    (s.eerr ≠ 0 ∧ execCommit s = .next (s.respond s.eerr 0)) ∨
    (s.eerr = 0 ∧ s.edepth.val ≠ 1 ∧
      execCommit s = .next ((s.latch .parseError).respond Err.parseError.code 0)) ∨
    (s.eerr = 0 ∧ ∃ v, s.live = [v] ∧
      execCommit s = .next ((((s.setValue v).setRaw v).emptyStack).respond 0 (v.setWidth 64))) := by
  by_cases h : s.eerr = 0
  · by_cases one : s.edepth.val = 1
    · obtain ⟨pre, v, hl⟩ := s.exists_live_one (by omega)
      have hp : pre = [] := by
        have := s.live_length; rw [hl, one] at this; simpa using this
      subst hp
      obtain ⟨live, ht, -⟩ := State.live_one hl
      exact .inr (.inr ⟨h, v, hl, by rw [execCommit, gated_run h, dif_pos one]; simp only [ht]; rfl⟩)
    · exact .inr (.inl ⟨h, one, by rw [execCommit, gated_run h, dif_neg one]; rfl⟩)
  · exact .inl ⟨h, gated_blocked h⟩

/-- Everything PUSH can do on this hardware (R145). -/
theorem exec_push_cases (v : Word) :
    (s.eerr ≠ 0 ∧ exec (.push v) s = .next (s.respond s.eerr 0)) ∨
    (s.eerr = 0 ∧ s.edepth.val = 16 ∧
      exec (.push v) s = .next ((s.latch .stackOverflow).respond Err.stackOverflow.code 0)) ∨
    (s.eerr = 0 ∧ ∃ room : s.edepth.val < 16,
      exec (.push v) s = .next ((s.push (v.setWidth 128) room).respond 0 0)) :=
  execPush_cases s v

/-- Everything COMMIT can do on this hardware (R146). -/
theorem exec_commit_cases :
    (s.eerr ≠ 0 ∧ exec .commit s = .next (s.respond s.eerr 0)) ∨
    (s.eerr = 0 ∧ s.edepth.val ≠ 1 ∧
      exec .commit s = .next ((s.latch .parseError).respond Err.parseError.code 0)) ∨
    (s.eerr = 0 ∧ ∃ v, s.live = [v] ∧
      exec .commit s = .next ((((s.setValue v).setRaw v).emptyStack).respond 0 (v.setWidth 64))) :=
  execCommit_cases s

end Sys2Proof.Machine
end

