-- ==== Sys2Proof/Certificates/Slice0/Obligations.lean ====
section
/-! DEFINITION. The statements for the provers. Each docstring says which rule of the spec the statement formalises. -/

open Sys2Proof Sys2Proof.Machine

/-! ## Encoding (30_encoding.md) -/

/-- Decode and encode agree on every well-formed instruction, with every operand at every value its field admits
(R51 to R54). -/
def Obligations.DecodeEncodeRoundTrip : Prop :=
  ∀ i : Instr, i.wf = true → decode (encode i) = .ok i

/-- Every command word has at most one meaning: what the decoder reads from a word is a well-formed instruction whose
encoding is that word again, so no reserved encoding falls through to a neighbour (R53, R54). -/
def Obligations.DecodedWordIsItsEncoding : Prop :=
  ∀ (c : Command) (i : Instr), decode c = .ok i → i.wf = true ∧ (encode i).cw = c.cw

/-- The decoder reads `op` only for SET and PUSH, and only `op[31:0]` for SHL and SHR (R50, R52). -/
def Obligations.DecodeReadsOperandOnlyWhereNamed : Prop :=
  (∀ (cw : CmdWord) (op op' : Word), opcField cw ∉ ([0x01, 0x0A, 0x0B, 0x21] : List Field8) →
    decode ⟨cw, op⟩ = decode ⟨cw, op'⟩) ∧
  ∀ (cw : CmdWord) (op op' : Word), opcField cw ∈ ([0x0A, 0x0B] : List Field8) →
    op.toNat % 2 ^ 32 = op'.toNat % 2 ^ 32 → decode ⟨cw, op⟩ = decode ⟨cw, op'⟩

/-- No two rows of the opcode map select a common word (R54). -/
def Obligations.OpcodeRowsDisjoint : Prop :=
  rows.Pairwise fun r q => r.pattern &&& q.mask ≠ q.pattern &&& r.mask

/-- Words of the spec's test vectors (95_test_vectors.md) decode to the instructions they stand for. -/
def Obligations.SpecWordsDecode : Prop :=
  decode ⟨0x01000000, 0xFF⟩ = .ok (.set 0xFF) ∧ decode ⟨0x043F0001, 0⟩ = .ok (.setb 63 true) ∧
  decode ⟨0x05C80300, 0⟩ = .ok (.rmask 200 3) ∧ decode ⟨0x0B000000, 0x100000000⟩ = .ok (.shr 0) ∧
  decode ⟨0x21000000, 0x10⟩ = .ok (.push 16) ∧ decode ⟨0x25000000, 0⟩ = .ok .ediv ∧
  decode ⟨0x2FFF0000, 0⟩ = .ok (.rdraw 255) ∧ decode ⟨0x30000000, 0⟩ = .ok .rdstat ∧
  decode ⟨0x25000001, 0⟩ = .error .unusedFieldNonzero ∧ decode ⟨0, 0⟩ = .error .unknownOpcode

/-- A command word is illegal when it matches no row of the map: its `OPC` is not in the table, or it is and an unused
field is non-zero. `OPC` 0x00, 0x0C to 0x1F and 0x31 to 0xFF are illegal, the zero word among them. An illegal command
raises IllegalCommand before any other check and changes no state, EERR included (R55). -/
def Obligations.IllegalCommandRaisesAndChangesNothing : Prop :=
  (∀ c : Command, (∀ r ∈ rows, c.cw &&& r.mask ≠ r.pattern) ↔ ∃ why, decode c = .error why) ∧
  (∀ (c : Command) (why : IllegalReason), decode c = .error why →
    (why = .unusedFieldNonzero ↔ ∃ r ∈ rows, opcField r.pattern = opcField c.cw)) ∧
  (∀ c : Command, (opcField c.cw = 0x00 ∨ (0x0C ≤ (opcField c.cw).toNat ∧ (opcField c.cw).toNat ≤ 0x1F) ∨
    0x31 ≤ (opcField c.cw).toNat) → decode c = .error .unknownOpcode) ∧
  ∀ (s : State) (c : Command) (rest : List Input), s.inputs = .command c :: rest →
    (∀ r ∈ rows, c.cw &&& r.mask ≠ r.pattern) →
    step s = .next (({ s with inputs := rest } : State).respond 7 0)

/-! ## The step (10_state.md, 20_memory.md, 70_reset_and_hazards.md) -/

/-- A step takes the next command off the port and runs the instruction it decodes to (R20, R57). The port as an ordered
list of inputs is the model's (log entry 2). -/
def Obligations.StepRunsDecodedInstruction : Prop :=
  ∀ (s : State) (c : Command) (i : Instr) (rest : List Input), s.inputs = .command c :: rest → decode c = .ok i →
    step s = exec i { s with inputs := rest }

/-- The word `withFetchWord` places is the one the next step runs; the model's interface, log entry 6. -/
def Obligations.TableWordRunsNext : Prop :=
  ∀ (s : State) (nbits w : Nat) (i : Instr), decodeTableWord nbits w = some i →
    step (s.withFetchWord nbits w) = exec i s

/-- With nothing presented the unit waits, unchanged; the model's reading of the wait, log entry 3. -/
def Obligations.WaitsWithNoCommand : Prop :=
  ∀ s : State, s.inputs = [] → step s = .next s

/-- Reset puts VALUE, EDEPTH, EERR and RAW at 0, returns no response, and a command it cuts short has no effect; the
machine's state at power-on has the same values (R33, R230, R231). That reset comes as an input in the one ordered list,
and that earlier responses stand, is the model's choice (log entries 2 and 7). -/
def Obligations.ResetClearsTheUnit : Prop :=
  (∀ (s : State) (cut : Option Command) (rest : List Input), s.inputs = .reset cut :: rest →
    ∃ t, step s = .next t ∧ t.value = 0 ∧ t.edepth = 0 ∧ t.eerr = 0 ∧ t.raw = 0 ∧ t.inputs = rest ∧
      t.responses = s.responses) ∧
  State.reset.value = 0 ∧ State.reset.edepth = 0 ∧ State.reset.eerr = 0 ∧ State.reset.raw = 0

/-- The unit never traps and never stops: every step answers a next state (R200, R208). -/
def Obligations.StepAlwaysAnswersNext : Prop :=
  ∀ s : State, ∃ t, step s = .next t

/-- One command is one transaction: a step on a command takes it off the port and returns exactly one response, after
those before it (R20, R21, R45). -/
def Obligations.OneResponsePerCommand : Prop :=
  ∀ (s : State) (c : Command) (rest : List Input), s.inputs = .command c :: rest →
    ∃ t r, step s = .next t ∧ t.inputs = rest ∧ t.responses = s.responses ++ [r]

/-- The invariant holds after reset (R26, R33). -/
def Obligations.ResetMeetsInvariant : Prop := State.reset.inv = true

/-- Every step keeps the invariant: EERR holds 0 or one of the codes 1, 2, 4, 5 and 6 (R26), no response has a reserved
status (R201), and a failing command's data is 0 (R21, R200). -/
def Obligations.StepKeepsInvariant : Prop :=
  ∀ s t : State, s.inv = true → step s = .next t → t.inv = true

/-- A failing command returns 0 in `dout` and leaves VALUE, RAW and the stack as they were. An evaluator error alone
writes EERR, and only over 0: a register command leaves EERR, and a code that an evaluator command writes is the one it
returns and one of the latched codes 1, 2, 4, 5 and 6 (R26, R43, R143, R200). -/
def Obligations.FailureChangesOnlyEerr : Prop :=
  ∀ (i : Instr) (s : State), ∃ t r, exec i s = .next t ∧ t.responses = s.responses ++ [r] ∧
    (i.isRegister = true → t.eerr = s.eerr) ∧
    (r.st ≠ 0 → r.dout = 0 ∧ t.value = s.value ∧ t.raw = s.raw ∧ t.edepth = s.edepth ∧ t.live = s.live ∧
      (t.eerr = s.eerr ∨
        (i.isRegister = false ∧ s.eerr = 0 ∧ t.eerr = r.st ∧ r.st ∈ ([1, 2, 4, 5, 6] : List Code))))

/-- EBEGIN is the only command that leaves an evaluator error state, and under a sticky error no command but EBEGIN
changes EERR, the stack or RAW (R143, R209). -/
def Obligations.OnlyEbeginLeavesErrorState : Prop :=
  ∀ (i : Instr) (s : State), s.eerr ≠ 0 → i ≠ .ebegin →
    ∃ t, exec i s = .next t ∧ t.eerr = s.eerr ∧ t.live = s.live ∧ t.edepth = s.edepth ∧ t.raw = s.raw

/-- Which commands touch which state: register commands change VALUE at most, evaluator commands other than COMMIT never
change VALUE or RAW, and RAW changes only by COMMIT (R22, R27, R32). -/
def Obligations.RegisterAndEvaluatorStateDisjoint : Prop :=
  ∀ (i : Instr) (s : State), ∃ t, exec i s = .next t ∧ t.inputs = s.inputs ∧
    (i.isRegister = true → t.estack = s.estack ∧ t.edepth = s.edepth ∧ t.eerr = s.eerr ∧ t.raw = s.raw) ∧
    (i.isRegister = false → i ≠ .commit → t.value = s.value ∧ t.raw = s.raw)

/-- A register command issued between two evaluator commands does not change what the evaluation does: the evaluator command
leaves the same evaluator state and gives the same response with it and without it (R32). -/
def Obligations.RegisterCommandKeepsEvaluation : Prop :=
  ∀ (r e : Instr) (s : State), r.isRegister = true → e.isRegister = false →
    ∃ t u v, exec r s = .next t ∧ exec e t = .next u ∧ exec e s = .next v ∧
      u.live = v.live ∧ u.edepth = v.edepth ∧ u.eerr = v.eerr ∧ u.raw = v.raw ∧
      u.responses.getLast? = v.responses.getLast?

/-- An entry at or above EDEPTH is never observable: states that differ only there step to states that differ only there,
with the same responses (R24, R31). -/
def Obligations.DeadEntriesNeverObservable : Prop :=
  ∀ s s' : State, SameObservable s s' →
    ∃ t t', step s = .next t ∧ step s' = .next t' ∧ SameObservable t t'

/-! ## Register access (40_register_access.md) -/

/-- SET writes its operand to VALUE and responds `(0, 0)` (R101). -/
def Obligations.SetWritesOperand : Prop :=
  ∀ v : Word, encode (.set v) = ⟨0x01000000, v⟩ ∧ ∀ s : State, Writes (.set v) s v

/-- GET responds VALUE and changes no state (R102). -/
def Obligations.GetReadsValue : Prop :=
  encode .get = ⟨0x02000000, 0⟩ ∧ ∀ s : State, Responds .get s 0 s.value

/-- An index above 63 raises RangeViolation and changes no state, for GETB and SETB (R100). -/
def Obligations.BitIndexChecked : Prop :=
  ∀ (s : State) (i : Nat) (on : Bool), 63 < i → Responds (.getb i) s 3 0 ∧ Responds (.setb i on) s 3 0

/-- GETB responds bit `i` of VALUE, 1 or 0, and changes no state; an index above 63 raises RangeViolation (R103). -/
def Obligations.GetbReadsBit : Prop :=
  (∀ i : Nat, i < 256 → encode (.getb i) = ⟨0x03000000 ||| BitVec.ofNat 32 i <<< 16, 0⟩) ∧
  ∀ (s : State) (i : Nat), (63 < i → Responds (.getb i) s 3 0) ∧
    (i ≤ 63 → Responds (.getb i) s 0 (if s.value.getLsbD i then 1 else 0))

/-- SETB makes bit `i` of VALUE what `on` says and changes no other bit; an index above 63 raises RangeViolation and leaves
VALUE unchanged (R104). -/
def Obligations.SetbWritesBit : Prop :=
  (∀ (i : Nat) (on : Bool), i < 256 →
    encode (.setb i on) = ⟨0x04000000 ||| BitVec.ofNat 32 i <<< 16 ||| (if on then 1 else 0), 0⟩) ∧
  ∀ (s : State) (i : Nat) (on : Bool), (63 < i → Responds (.setb i on) s 3 0) ∧
    (i ≤ 63 → ∃ v, Writes (.setb i on) s v ∧ v.getLsbD i = on ∧ ∀ j, j ≠ i → v.getLsbD j = s.value.getLsbD j)

/-! ## Range commands (41_range.md) -/

/-- A range command with a bound above 63, whichever it is, raises RangeViolation and changes no state (R110, R204). -/
def Obligations.RangeBoundsChecked : Prop :=
  ∀ (s : State) (a b : Nat), 63 < a ∨ 63 < b →
    Responds (.rmask a b) s 3 0 ∧ Responds (.extr a b) s 3 0 ∧ Responds (.zero a b) s 3 0 ∧
    Responds (.one a b) s 3 0 ∧ Responds (.togl a b) s 3 0

/-- RMASK responds the value with exactly the bits of the range set, which is R13's `rmask`, and changes no state; a bound
above 63 raises RangeViolation (R111, R13). -/
def Obligations.RmaskReturnsRangeMask : Prop :=
  (∀ a b : Nat, a < 256 → b < 256 →
    encode (.rmask a b) = ⟨0x05000000 ||| BitVec.ofNat 32 a <<< 16 ||| BitVec.ofNat 32 b <<< 8, 0⟩) ∧
  ∀ (s : State) (a b : Nat), (63 < a ∨ 63 < b → Responds (.rmask a b) s 3 0) ∧
    (a ≤ 63 → b ≤ 63 → ∃ m, Responds (.rmask a b) s 0 m ∧
      m.toNat = (2 ^ (max a b - min a b + 1) - 1) * 2 ^ min a b ∧
      ∀ j, m.getLsbD j = (decide (min a b ≤ j) && decide (j ≤ max a b)))

/-- The mask RMASK returns has `hi - lo + 1` set bits, its lowest set bit is bit `lo`, and none is set above bit `hi`, so
that they are contiguous (R116). -/
def Obligations.RangeMaskBitCount : Prop :=
  ∀ (s : State) (a b : Nat), a ≤ 63 → b ≤ 63 → ∃ m, Responds (.rmask a b) s 0 m ∧
    ((List.range 64).filter fun j => m.getLsbD j).length = max a b - min a b + 1 ∧
    m.getLsbD (min a b) = true ∧ (∀ j, j < min a b → m.getLsbD j = false) ∧
    ∀ j, max a b < j → m.getLsbD j = false

/-- EXTR moves the range down to bit 0 and clears every bit above it; a bound above 63 raises RangeViolation (R112). -/
def Obligations.ExtrExtractsRange : Prop :=
  (∀ a b : Nat, a < 256 → b < 256 →
    encode (.extr a b) = ⟨0x06000000 ||| BitVec.ofNat 32 a <<< 16 ||| BitVec.ofNat 32 b <<< 8, 0⟩) ∧
  ∀ (s : State) (a b : Nat), (63 < a ∨ 63 < b → Responds (.extr a b) s 3 0) ∧
    (a ≤ 63 → b ≤ 63 → ∃ v, Writes (.extr a b) s v ∧
      ∀ j, v.getLsbD j = (decide (min a b + j ≤ max a b) && s.value.getLsbD (min a b + j)))

/-- EXTR leaves `(value & m) >> lo`, where `m` is what RMASK returns for the same bounds (R119). -/
def Obligations.ExtrIsMaskThenShift : Prop :=
  ∀ (s : State) (a b : Nat), a ≤ 63 → b ≤ 63 → ∃ m, Responds (.rmask a b) s 0 m ∧
    Writes (.extr a b) s ((s.value &&& m) >>> min a b)

/-- ZERO clears, ONE sets and TOGL inverts exactly the bits of the range; a bound above 63 raises RangeViolation and leaves
VALUE unchanged (R113, R114, R115). -/
def Obligations.ZeroOneToglChangeTheRange : Prop :=
  (∀ a b : Nat, a < 256 → b < 256 →
    encode (.zero a b) = ⟨0x07000000 ||| BitVec.ofNat 32 a <<< 16 ||| BitVec.ofNat 32 b <<< 8, 0⟩ ∧
    encode (.one a b) = ⟨0x08000000 ||| BitVec.ofNat 32 a <<< 16 ||| BitVec.ofNat 32 b <<< 8, 0⟩ ∧
    encode (.togl a b) = ⟨0x09000000 ||| BitVec.ofNat 32 a <<< 16 ||| BitVec.ofNat 32 b <<< 8, 0⟩) ∧
  ∀ (s : State) (a b : Nat),
    (63 < a ∨ 63 < b →
      Responds (.zero a b) s 3 0 ∧ Responds (.one a b) s 3 0 ∧ Responds (.togl a b) s 3 0) ∧
    (a ≤ 63 → b ≤ 63 → ∃ z o x, Writes (.zero a b) s z ∧ Writes (.one a b) s o ∧ Writes (.togl a b) s x ∧
      ∀ j, if min a b ≤ j ∧ j ≤ max a b
        then z.getLsbD j = false ∧ o.getLsbD j = true ∧ x.getLsbD j = !s.value.getLsbD j
        else z.getLsbD j = s.value.getLsbD j ∧ o.getLsbD j = s.value.getLsbD j ∧ x.getLsbD j = s.value.getLsbD j)

/-- Every range command with `(A, B)` has the same effect and response as with `(B, A)` (R117). -/
def Obligations.RangeOrderIndependent : Prop :=
  ∀ (s : State) (a b : Nat), exec (.rmask a b) s = exec (.rmask b a) s ∧ exec (.extr a b) s = exec (.extr b a) s ∧
    exec (.zero a b) s = exec (.zero b a) s ∧ exec (.one a b) s = exec (.one b a) s ∧
    exec (.togl a b) s = exec (.togl b a) s

/-- TOGL applied twice restores VALUE, for all bounds, out-of-range ones too, and all starting values (R118). -/
def Obligations.ToglTwiceRestores : Prop :=
  ∀ (s : State) (a b : Nat), ∃ t u, exec (.togl a b) s = .next t ∧ exec (.togl a b) t = .next u ∧
    u.value = s.value ∧ u.estack = s.estack ∧ u.edepth = s.edepth ∧ u.eerr = s.eerr ∧ u.raw = s.raw

/-- `TOGL 0, 63` complements VALUE, which is `MASK64 - VALUE` (R120). -/
def Obligations.FullToggleComplements : Prop :=
  ∀ s : State, ∃ v, Writes (.togl 0 63) s v ∧ v = ~~~s.value ∧ v.toNat = 2 ^ 64 - 1 - s.value.toNat

/-! ## Register shifts (42_shift.md) -/

/-- SHL leaves `(VALUE * 2^n) mod 2^64` and SHR leaves `floor(VALUE / 2^n)`, for every amount; the amount is `op[31:0]`
(R131, R132). -/
def Obligations.ShiftsAreExactThenMasked : Prop :=
  (∀ n : Nat, n < 2 ^ 32 → encode (.shl n) = ⟨0x0A000000, BitVec.ofNat 64 n⟩ ∧
    encode (.shr n) = ⟨0x0B000000, BitVec.ofNat 64 n⟩) ∧
  (∀ op : Word, decode ⟨0x0A000000, op⟩ = .ok (.shl (op.toNat % 2 ^ 32)) ∧
    decode ⟨0x0B000000, op⟩ = .ok (.shr (op.toNat % 2 ^ 32))) ∧
  ∀ (s : State) (n : Nat),
    (∃ v, Writes (.shl n) s v ∧ v.toNat = s.value.toNat * 2 ^ n % 2 ^ 64) ∧
    ∃ v, Writes (.shr n) s v ∧ v.toNat = s.value.toNat / 2 ^ n

/-- The shift amount is `op[31:0]`, `op[63:32]` is ignored, and no amount raises an error (R130). -/
def Obligations.ShiftAmountIsLowOperandHalf : Prop :=
  ∀ op : Word, decode ⟨0x0A000000, op⟩ = .ok (.shl (op.toNat % 2 ^ 32)) ∧
    decode ⟨0x0B000000, op⟩ = .ok (.shr (op.toNat % 2 ^ 32)) ∧
    ∀ s : State, (∃ v, Writes (.shl (op.toNat % 2 ^ 32)) s v) ∧ ∃ v, Writes (.shr (op.toNat % 2 ^ 32)) s v

/-- An amount of 64 or more leaves 0, for every starting VALUE (R133). -/
def Obligations.ShiftsSaturateToZero : Prop :=
  ∀ (s : State) (n : Nat), 64 ≤ n → Writes (.shl n) s 0 ∧ Writes (.shr n) s 0

/-! ## Evaluator control (43_evaluator_control.md) -/

/-- A gated command changes no state under a sticky error and responds it; EBEGIN, RDRAW and RDSTAT are not gated (R140). -/
def Obligations.GatedCommandsBlocked : Prop :=
  (∀ (i : Instr) (s : State), i.isGated = true → s.eerr ≠ 0 → Responds i s s.eerr 0) ∧
  ∀ (i : Instr) (s : State), (i = .ebegin ∨ (∃ k, i = .rdraw k) ∨ i = .rdstat) →
    ∃ t d, exec i s = .next t ∧ t.responses = s.responses ++ [⟨0, d⟩]

/-- Once an evaluator command has failed, every later gated command up to the next EBEGIN reports that first error, however
many there are and whatever register commands, RDRAW and RDSTAT stand between them. The stack, EERR and RAW stay as they
were, and so does VALUE where no register command stands (R32, R140, R143, R207). -/
def Obligations.FirstErrorReportedToTheEnd : Prop :=
  ∀ (is : List Instr) (s : State), s.inputs = [] → s.eerr ≠ 0 → (∀ i ∈ is, i ≠ .ebegin ∧ i.wf = true) →
    ∃ t rs, runInstrs is s = .next t ∧ t.inputs = [] ∧ t.responses = s.responses ++ rs ∧ rs.length = is.length ∧
      (∀ (k : Nat) (i : Instr), is[k]? = some i → i.isGated = true → rs[k]? = some ⟨s.eerr, 0⟩) ∧
      t.eerr = s.eerr ∧ t.live = s.live ∧ t.edepth = s.edepth ∧ t.raw = s.raw ∧
      ((∀ i ∈ is, i.isRegister = false) → t.value = s.value)

/-- On an idle evaluator EBEGIN changes no state, so an evaluation gives the same result with or without it (R232). -/
def Obligations.EbeginOnIdleChangesNothing : Prop :=
  ∀ s : State, s.idle = true → Responds .ebegin s 0 0

/-- EBEGIN empties the stack, clears EERR and leaves VALUE and RAW; it always succeeds (R144). -/
def Obligations.EbeginStartsEvaluation : Prop :=
  encode .ebegin = ⟨0x20000000, 0⟩ ∧
  ∀ s : State, ∃ t, exec .ebegin s = .next t ∧ t.edepth = 0 ∧ t.live = [] ∧ t.eerr = 0 ∧ t.value = s.value ∧
    t.raw = s.raw ∧ t.inputs = s.inputs ∧ t.responses = s.responses ++ [⟨0, 0⟩]

/-- PUSH: gated; StackOverflow on a full stack; otherwise the unsigned operand goes on top of the live entries (R145). -/
def Obligations.PushPushesLiteral : Prop :=
  ∀ v : Word, encode (.push v) = ⟨0x21000000, v⟩ ∧
    ∀ s : State, (s.eerr ≠ 0 → Responds (.push v) s s.eerr 0) ∧
      (s.eerr = 0 → s.edepth.val = 16 → FailsWith (.push v) s .stackOverflow) ∧
      (s.eerr = 0 → s.edepth.val < 16 → LeavesOnTop (.push v) s s.live v.toNat)

/-- COMMIT: gated; ParseError unless exactly one entry is live; otherwise VALUE takes its low 64 bits, RAW the entry, the
stack is emptied, EERR stays 0, and the masked value is the response's data (R146). -/
def Obligations.CommitStoresResult : Prop :=
  encode .commit = ⟨0x2E000000, 0⟩ ∧
  ∀ s : State, (s.eerr ≠ 0 → Responds .commit s s.eerr 0) ∧
    (s.eerr = 0 → s.edepth.val ≠ 1 → FailsWith .commit s .parseError) ∧
    ∀ v : Entry, s.eerr = 0 → s.live = [v] →
      ∃ t, exec .commit s = .next t ∧ (t.value.toNat : Int) = v.toInt % 2 ^ 64 ∧ t.raw = v ∧ t.edepth = 0 ∧
        t.eerr = 0 ∧ t.inputs = s.inputs ∧ t.responses = s.responses ++ [⟨0, t.value⟩]

/-- RDRAW responds the chunk's two's-complement bits of RAW, with sign fill above bit 127; it is not gated, every `k` is
legal, and no state changes. Right after a successful COMMIT, `RDRAW 0` responds VALUE (R147). -/
def Obligations.RdrawReadsChunk : Prop :=
  (∀ k : Nat, k < 256 → encode (.rdraw k) = ⟨0x2F000000 ||| BitVec.ofNat 32 k <<< 16, 0⟩) ∧
  (∀ (s : State) (k : Nat), ∃ d, Responds (.rdraw k) s 0 d ∧
    ∀ j, j < 64 → d.getLsbD j = if 64 * k + j < 128 then s.raw.getLsbD (64 * k + j) else s.raw.msb) ∧
  ∀ s : State, s.eerr = 0 → s.edepth.val = 1 →
    ∃ t, exec .commit s = .next t ∧ Responds (.rdraw 0) t 0 t.value

/-- The chunks `RDRAW 0` to `RDRAW ceil(EVAL_WIDTH/64)-1`, joined as a signed number, are RAW (R82). -/
def Obligations.RawJoinsFromItsChunks : Prop :=
  ∀ s : State, ∃ ds : List Word, ds.length = rawChunkCount Config.thisHardware ∧
    (∀ (k : Nat) (d : Word), ds[k]? = some d → Responds (.rdraw k) s 0 d) ∧ joinRaw ds = s.raw.toInt

/-- RDSTAT responds EERR in bits 3 to 0 and EDEPTH in bits 15 to 8, every other bit 0; it is not gated and changes no state
(R149). -/
def Obligations.RdstatReadsStatus : Prop :=
  encode .rdstat = ⟨0x30000000, 0⟩ ∧
  ∀ s : State, ∃ d, Responds .rdstat s 0 d ∧ d.toNat = 256 * s.edepth.val + s.eerr.toNat

/-! ## Evaluator ALU (44_evaluator_alu.md) -/

/-- ENEG leaves `-a`, or EvalOverflow for `a = -2^127`; ENOT leaves `-a - 1` and never overflows. The sticky error and the
missing operand come first (R160, R161). -/
def Obligations.EnegEnotRule : Prop :=
  encode .eneg = ⟨0x22000000, 0⟩ ∧ encode .enot = ⟨0x23000000, 0⟩ ∧
  ChecksOperands .eneg 1 ∧ ChecksOperands .enot 1 ∧
  ∀ (s : State) (pre : List Entry) (a : Entry), s.eerr = 0 → s.live = pre ++ [a] →
    (a.toInt = -(2 ^ 127) → FailsWith .eneg s .evalOverflow) ∧
    (a.toInt ≠ -(2 ^ 127) → LeavesOnTop .eneg s pre (-a.toInt)) ∧
    LeavesOnTop .enot s pre (-a.toInt - 1)

/-- EMUL, EADD and ESUB leave the exact product, sum and difference `a - b`, or EvalOverflow where it does not fit. The
sticky error and the missing operand come first (R162, R165, R166). -/
def Obligations.EmulEaddEsubRule : Prop :=
  encode .emul = ⟨0x24000000, 0⟩ ∧ encode .eadd = ⟨0x27000000, 0⟩ ∧ encode .esub = ⟨0x28000000, 0⟩ ∧
  ChecksOperands .emul 2 ∧ ChecksOperands .eadd 2 ∧ ChecksOperands .esub 2 ∧
  ∀ (s : State) (pre : List Entry) (a b : Entry), s.eerr = 0 → s.live = pre ++ [a, b] →
    (InRange (a.toInt * b.toInt) → LeavesOnTop .emul s pre (a.toInt * b.toInt)) ∧
    (¬ InRange (a.toInt * b.toInt) → FailsWith .emul s .evalOverflow) ∧
    (InRange (a.toInt + b.toInt) → LeavesOnTop .eadd s pre (a.toInt + b.toInt)) ∧
    (¬ InRange (a.toInt + b.toInt) → FailsWith .eadd s .evalOverflow) ∧
    (InRange (a.toInt - b.toInt) → LeavesOnTop .esub s pre (a.toInt - b.toInt)) ∧
    (¬ InRange (a.toInt - b.toInt) → FailsWith .esub s .evalOverflow)

/-- EDIV leaves the floor quotient and EMOD `a - b * q` for it, which is 0 or has the sign of `b` and is smaller than `b`. A
zero divisor gives DivideByZero; EDIV overflows only for `-2^127 / -1` and EMOD never. The sticky error and the missing
operand come first (R163, R164). -/
def Obligations.EdivEmodRule : Prop :=
  encode .ediv = ⟨0x25000000, 0⟩ ∧ encode .emod = ⟨0x26000000, 0⟩ ∧
  ChecksOperands .ediv 2 ∧ ChecksOperands .emod 2 ∧
  ∀ (s : State) (pre : List Entry) (a b : Entry), s.eerr = 0 → s.live = pre ++ [a, b] →
    (b.toInt = 0 → FailsWith .ediv s .divideByZero ∧ FailsWith .emod s .divideByZero) ∧
    (a.toInt = -(2 ^ 127) → b.toInt = -1 → FailsWith .ediv s .evalOverflow) ∧
    (b.toInt ≠ 0 → ¬ (a.toInt = -(2 ^ 127) ∧ b.toInt = -1) →
      ∃ q, IsFloorQuotient a.toInt b.toInt q ∧ LeavesOnTop .ediv s pre q) ∧
    (b.toInt ≠ 0 → ∃ q, IsFloorQuotient a.toInt b.toInt q ∧ LeavesOnTop .emod s pre (a.toInt - b.toInt * q) ∧
      |a.toInt - b.toInt * q| < |b.toInt| ∧ 0 ≤ (a.toInt - b.toInt * q) * b.toInt)

/-- ESHL leaves the exact `a * 2^b`, or EvalOverflow where it does not fit; ESHR leaves `floor(a / 2^b)` and never
overflows. A negative count gives ShiftCountNegative. The sticky error and the missing operand come first (R167, R168). -/
def Obligations.EshlEshrRule : Prop :=
  encode .eshl = ⟨0x29000000, 0⟩ ∧ encode .eshr = ⟨0x2A000000, 0⟩ ∧
  ChecksOperands .eshl 2 ∧ ChecksOperands .eshr 2 ∧
  ∀ (s : State) (pre : List Entry) (a b : Entry), s.eerr = 0 → s.live = pre ++ [a, b] →
    (b.toInt < 0 → FailsWith .eshl s .shiftCountNegative ∧ FailsWith .eshr s .shiftCountNegative) ∧
    (0 ≤ b.toInt → InRange (a.toInt * 2 ^ b.toInt.toNat) → LeavesOnTop .eshl s pre (a.toInt * 2 ^ b.toInt.toNat)) ∧
    (0 ≤ b.toInt → ¬ InRange (a.toInt * 2 ^ b.toInt.toNat) → FailsWith .eshl s .evalOverflow) ∧
    (0 ≤ b.toInt → ∃ q, IsFloorQuotient a.toInt (2 ^ b.toInt.toNat) q ∧ LeavesOnTop .eshr s pre q)

/-- EAND, EXOR and EOR leave the integer whose bit `k` is the AND, XOR or OR of the operands' bits, for every `k >= 0` of
the infinite two's-complement strings; they never overflow. The sticky error and the missing operand come first
(R169, R170, R171). -/
def Obligations.EandExorEorRule : Prop :=
  encode .eand = ⟨0x2B000000, 0⟩ ∧ encode .exor = ⟨0x2C000000, 0⟩ ∧ encode .eor = ⟨0x2D000000, 0⟩ ∧
  ChecksOperands .eand 2 ∧ ChecksOperands .exor 2 ∧ ChecksOperands .eor 2 ∧
  ∀ (s : State) (pre : List Entry) (a b : Entry), s.eerr = 0 → s.live = pre ++ [a, b] →
    (∃ r : Int, LeavesOnTop .eand s pre r ∧
      ∀ k : Nat, r / 2 ^ k % 2 = (a.toInt / 2 ^ k % 2) * (b.toInt / 2 ^ k % 2)) ∧
    (∃ r : Int, LeavesOnTop .exor s pre r ∧
      ∀ k : Nat, r / 2 ^ k % 2 = (a.toInt / 2 ^ k % 2 + b.toInt / 2 ^ k % 2) % 2) ∧
    ∃ r : Int, LeavesOnTop .eor s pre r ∧
      ∀ k : Nat, r / 2 ^ k % 2 = max (a.toInt / 2 ^ k % 2) (b.toInt / 2 ^ k % 2)

/-- Where ENEG, ENOT, EMUL, EADD, ESUB, EAND, EXOR or EOR succeeds in two states whose operands have the same low 64 bits,
the new tops have the same low 64 bits; for ESHL the same holds where the two counts are equal. For EDIV, EMOD and ESHR it
is false (R172). -/
def Obligations.LowBitsDependOnLowBits : Prop :=
  (∀ i ∈ ([.eneg, .enot] : List Instr), ∀ (s s' t t' : State) (pre pre' : List Entry) (a a' : Entry),
    s.live = pre ++ [a] → s'.live = pre' ++ [a'] → SameLowBits a a' → Succeeds i s t → Succeeds i s' t' →
      ∃ x x', t.live = pre ++ [x] ∧ t'.live = pre' ++ [x'] ∧ SameLowBits x x') ∧
  (∀ i ∈ ([.emul, .eadd, .esub, .eand, .exor, .eor, .eshl] : List Instr),
    ∀ (s s' t t' : State) (pre pre' : List Entry) (a a' b b' : Entry),
    s.live = pre ++ [a, b] → s'.live = pre' ++ [a', b'] → SameLowBits a a' →
      (if i = .eshl then b = b' else SameLowBits b b') → Succeeds i s t → Succeeds i s' t' →
      ∃ x x', t.live = pre ++ [x] ∧ t'.live = pre' ++ [x'] ∧ SameLowBits x x') ∧
  ∀ i ∈ ([.ediv, .emod, .eshr] : List Instr), ∃ (s s' t t' : State) (a a' b x x' : Entry),
    s.live = [a, b] ∧ s'.live = [a', b] ∧ SameLowBits a a' ∧ Succeeds i s t ∧ Succeeds i s' t' ∧
      t.live = [x] ∧ t'.live = [x'] ∧ ¬ SameLowBits x x'

/-! ## The expression language and whole evaluations (30_encoding.md) -/

/-- A literal's commands push its value, in a state with no error and the room it needs, when the value fits; when it does
not fit, they end in EvalOverflow, with VALUE and RAW as they were (R78, R81). -/
def Obligations.LiteralCommandsPushItsValue : Prop :=
  ∀ (n : Nat) (s : State), s.inputs = [] → s.eerr = 0 → s.edepth.val + (Expr.lit n).need ≤ 16 →
    (InRange n → ∃ t x, runInstrs (literalCommands n) s = .next t ∧ x.toInt = (n : Int) ∧ t.live = s.live ++ [x] ∧
      t.eerr = 0 ∧ t.value = s.value ∧ t.raw = s.raw ∧ t.inputs = [] ∧
      t.responses = s.responses ++ List.replicate (literalCommands n).length ⟨0, 0⟩) ∧
    (¬ InRange n → ∃ t, runInstrs (literalCommands n) s = .next t ∧ t.eerr = 4 ∧ t.value = s.value ∧ t.raw = s.raw ∧
      t.inputs = [])

/-- At any width and depth, the bounded evaluation succeeds exactly when the reference meaning gives a value, every pushed
value fits, and the stack need is met; its value is then the reference's (R6, R77, R81, R83). -/
def Obligations.BoundedEvaluationIsTheReference : Prop :=
  ∀ (cfg : Params) (e : Expr) (room : Nat) (v : Int),
    e.bounded cfg room = .ok v ↔ e.meaning = .ok v ∧ e.within cfg = true ∧ e.need ≤ room

/-- The machine agrees with the reference meaning: the commands `EVAL` issues for an expression, run from an idle
evaluator, end in VALUE = `V(e) & MASK64`, RAW = `V(e)` and COMMIT's `(0, VALUE)` when the reference gives a value, every
pushed value fits and the need is met; otherwise COMMIT, and every command from the first that fails on, returns that
command's code, and VALUE and RAW are unchanged (R80, R83). -/
def Obligations.EvaluationAgreesWithReference : Prop :=
  ∀ (e : Expr) (s : State), s.inputs = [] → s.idle = true →
    (∀ v : Int, e.meaning = .ok v → e.within Config.thisHardware = true → e.need ≤ 16 →
      ∃ t, runInstrs e.evaluation s = .next t ∧ (t.value.toNat : Int) = v % 2 ^ 64 ∧ t.raw.toInt = v ∧
        t.idle = true ∧ t.inputs = [] ∧
        t.responses = s.responses ++ List.replicate (1 + e.commands.length) ⟨0, 0⟩ ++ [⟨0, t.value⟩]) ∧
    ((¬ ∃ v, e.meaning = .ok v ∧ e.within Config.thisHardware = true ∧ e.need ≤ 16) →
      ∃ x t k m, e.bounded Config.thisHardware 16 = .error x ∧ runInstrs e.evaluation s = .next t ∧ t.value = s.value ∧ t.raw = s.raw ∧
        t.eerr = x.code ∧ t.inputs = [] ∧ k + m = e.commands.length ∧ 0 < m ∧
        t.responses = s.responses ++ List.replicate (1 + k) ⟨0, 0⟩ ++ List.replicate (m + 1) ⟨x.code, 0⟩)

/-- The expression of a text's parser is derived by the grammar (R74). -/
def Obligations.ParserFollowsTheGrammar : Prop :=
  ∀ (ts : List Token) (e : Expr), parse ts = some e → Derives 0 ts e

/-- The parser finds the expression of every token sequence the grammar derives; so no sequence has two (R74). -/
def Obligations.ParserFindsEveryDerivation : Prop :=
  ∀ (ts : List Token) (e : Expr), Derives 0 ts e → parse ts = some e

/-- The display formats write VALUE in their base, with no leading zero beyond a single "0" and upper-case hexadecimal
digits; the raw value is written in base 10, with no leading zero beyond a single "0", led by `-` when it is negative
(R90 to R94). -/
def Obligations.DisplayReadsBack : Prop :=
  (∀ v : Word, numeral 16 (toHex v) = some v.toNat ∧ numeral 10 (toDec v) = some v.toNat ∧
    numeral 8 (toOct v) = some v.toNat ∧ numeral 2 (toBin v) = some v.toNat) ∧
  (∀ v : Word, v ≠ 0 → (toHex v).head? ≠ some '0' ∧ (toDec v).head? ≠ some '0' ∧ (toOct v).head? ≠ some '0' ∧
    (toBin v).head? ≠ some '0') ∧
  (toHex 0 = ['0'] ∧ toDec 0 = ['0'] ∧ toOct 0 = ['0'] ∧ toBin 0 = ['0'] ∧ showRaw (0 : Entry) = ['0']) ∧
  (∀ v : Word, ∀ c ∈ toHex v, c ∈ "0123456789ABCDEF".toList) ∧
  ∀ raw : Entry, ∃ ds, numeral 10 ds = some raw.toInt.natAbs ∧ (raw ≠ 0 → ds.head? ≠ some '0') ∧
    showRaw raw = if raw.toInt < 0 then '-' :: ds else ds

/-- `EVAL` of the decimal rendering of a 64-bit value issues `EBEGIN; PUSH v; COMMIT`, returns that value with status 0, and
leaves it in VALUE (R95). -/
def Obligations.DecimalRenderingEvaluatesToItself : Prop :=
  ∀ (v : Word) (s : State), s.inputs = [] → translate (toDec v) = some [.ebegin, .push v, .commit] ∧
    ∃ t, runInstrs [.ebegin, .push v, .commit] s = .next t ∧ t.value = v ∧
      t.responses.getLast? = some ⟨0, v⟩

/-- The pseudo-instructions' expansions, on lines of text in the plain form of R60. `EVAL` of any text issues EBEGIN, the
text's translation and COMMIT; where the text is not in the language it issues no command and reports ParseError (R60,
R61). The line format beyond R60 is the model's (log entry 13). -/
def Obligations.PseudoInstructionsExpand : Prop :=
  (assembleLine "CLR".toList = .instrs [.set 0] ∧ assembleLine "INV".toList = .instrs [.togl 0 63] ∧
    assembleLine "BSET 5".toList = .instrs [.setb 5 true] ∧
    assembleLine "BCLR 0x3F".toList = .instrs [.setb 63 false] ∧
    assembleLine "TOGL 0, 7".toList = .instrs [.togl 0 7] ∧ assembleLine "GETB 256".toList = .rejected) ∧
  (∀ (text : List Char) (e : Expr), parseText text = some e →
    assembleLine ("EVAL \"".toList ++ text ++ ['"']) = .instrs ([.ebegin] ++ e.commands ++ [.commit])) ∧
  (∀ text : List Char, parseText text = none → assembleLine ("EVAL \"".toList ++ text ++ ['"']) = .parseError) ∧
  parseText "5/0 +".toList = none ∧
  parseText "0x10 + 2*3".toList = some (.bin .add (.lit 16) (.bin .mul (.lit 2) (.lit 3)))

/-! ## The implementation parameters (00_scope.md) -/

/-- The parameters are arguments: with any `EVAL_WIDTH` and `STACK_DEPTH` that R6 admits, PUSH fills exactly `STACK_DEPTH`
entries and holds every 64-bit literal, EMUL's product fits exactly in `EVAL_WIDTH` bits or overflows, and RDSTAT shows
the whole of EDEPTH (R6, R142, R145, R149, R162). -/
def Obligations.WidthAndDepthAreArguments : Prop :=
  ∀ (cfg : Params) (s : State cfg), s.eerr = 0 →
    (∀ v : Word, s.edepth.val = cfg.stackDepth →
      execFor cfg (.push v) s = .next (({ s with eerr := 6 } : State cfg).respond 6 0)) ∧
    (∀ v : Word, s.edepth.val < cfg.stackDepth → ∃ t x, execFor cfg (.push v) s = .next t ∧
      x.toInt = (v.toNat : Int) ∧ t.live = s.live ++ [x] ∧ t.value = s.value ∧ t.raw = s.raw ∧ t.eerr = 0 ∧
      t.responses = s.responses ++ [⟨0, 0⟩]) ∧
    (∀ (pre : List (Entry cfg)) (a b : Entry cfg), s.live = pre ++ [a, b] →
      (InRange (a.toInt * b.toInt) cfg → ∃ t x, execFor cfg .emul s = .next t ∧ x.toInt = a.toInt * b.toInt ∧
        t.live = pre ++ [x] ∧ t.value = s.value ∧ t.raw = s.raw ∧ t.eerr = 0 ∧
        t.responses = s.responses ++ [⟨0, 0⟩]) ∧
      (¬ InRange (a.toInt * b.toInt) cfg →
        execFor cfg .emul s = .next (({ s with eerr := 4 } : State cfg).respond 4 0))) ∧
    ∃ d : Word, execFor cfg .rdstat s = .next (s.respond 0 d) ∧ d.toNat = 256 * s.edepth.val + s.eerr.toNat
end

