-- ==== Sys2Proof/Tests/Slice0.lean ====
section
/-! SUPPORT. The model's own tests: ill-formed terms refused, one word per constructor written out from the spec's encoding
(R54), the spec's test vectors (95_test_vectors.md, named V<n> and E<n>) on single steps, and for each statement with
hypotheses a theorem that concrete values meet them. -/

namespace Sys2Proof.Tests

open Sys2Proof.Machine

/-! ## Well-formedness: an ill-formed term for each check -/

theorem test_wf_refuses_index_256 : (Instr.getb 256).wf = false := by decide

theorem test_wf_refuses_setb_index : (Instr.setb 256 true).wf = false := by decide

theorem test_wf_refuses_first_bound : (Instr.rmask 256 0).wf = false := by decide

theorem test_wf_refuses_second_bound : (Instr.togl 0 256).wf = false := by decide

theorem test_wf_refuses_other_ranges :
    (Instr.extr 256 0).wf = false ∧ (Instr.zero 0 256).wf = false ∧ (Instr.one 256 256).wf = false := by decide

theorem test_wf_refuses_amount : (Instr.shl 4294967296).wf = false ∧ (Instr.shr 4294967296).wf = false := by decide

theorem test_wf_refuses_chunk : (Instr.rdraw 256).wf = false := by decide

/-! ## Decoding: a word for every constructor, written out from R51 and R54 -/

theorem test_decode_set : decode ⟨0x01000000, 0xFF⟩ = .ok (.set 0xFF) := by decide

theorem test_decode_get : decode ⟨0x02000000, 9⟩ = .ok .get := by decide

/-- V3: `GETB 63`, `OPC = 0000_0011`, `A = 0011_1111`. -/
theorem test_decode_getb : decode ⟨0b00000011001111110000000000000000, 0⟩ = .ok (.getb 63) := by decide

/-- V7: `SETB 63, 1`, `OPC = 0000_0100`, `A = 0011_1111`, `ON = 1`. -/
theorem test_decode_setb : decode ⟨0b00000100001111110000000000000001, 0⟩ = .ok (.setb 63 true) := by decide

/-- V26: `RMASK 200, 3`, `OPC = 0000_0101`, `A = 1100_1000`, `B = 0000_0011`. -/
theorem test_decode_rmask : decode ⟨0b00000101110010000000001100000000, 0⟩ = .ok (.rmask 200 3) := by decide

theorem test_decode_extr : decode ⟨0x06040700, 0⟩ = .ok (.extr 4 7) := by decide

theorem test_decode_zero : decode ⟨0x07040700, 0⟩ = .ok (.zero 4 7) := by decide

theorem test_decode_one : decode ⟨0x08003F00, 0⟩ = .ok (.one 0 63) := by decide

theorem test_decode_togl : decode ⟨0x09034000, 0⟩ = .ok (.togl 3 64) := by decide

/-- V55: `op[63:32]` is ignored. -/
theorem test_decode_shl : decode ⟨0b00001010000000000000000000000000, 0x100000004⟩ = .ok (.shl 4) := by decide

theorem test_decode_shr : decode ⟨0x0B000000, 0xFFFFFFFF⟩ = .ok (.shr 4294967295) := by decide

theorem test_decode_ebegin : decode ⟨0x20000000, 0⟩ = .ok .ebegin := by decide

/-- `PUSH 0x10`, `OPC = 0010_0001`. -/
theorem test_decode_push : decode ⟨0b00100001000000000000000000000000, 0x10⟩ = .ok (.push 0x10) := by decide

theorem test_decode_eneg : decode ⟨0x22000000, 0⟩ = .ok .eneg := by decide

theorem test_decode_enot : decode ⟨0x23000000, 0⟩ = .ok .enot := by decide

theorem test_decode_emul : decode ⟨0x24000000, 0⟩ = .ok .emul := by decide

/-- `EDIV`, `OPC = 0010_0101`. -/
theorem test_decode_ediv : decode ⟨0b00100101000000000000000000000000, 0⟩ = .ok .ediv := by decide

theorem test_decode_emod : decode ⟨0x26000000, 0⟩ = .ok .emod := by decide

theorem test_decode_eadd : decode ⟨0x27000000, 0⟩ = .ok .eadd := by decide

theorem test_decode_esub : decode ⟨0x28000000, 0⟩ = .ok .esub := by decide

theorem test_decode_eshl : decode ⟨0x29000000, 0⟩ = .ok .eshl := by decide

theorem test_decode_eshr : decode ⟨0x2A000000, 0⟩ = .ok .eshr := by decide

theorem test_decode_eand : decode ⟨0x2B000000, 0⟩ = .ok .eand := by decide

theorem test_decode_exor : decode ⟨0x2C000000, 0⟩ = .ok .exor := by decide

theorem test_decode_eor : decode ⟨0x2D000000, 0⟩ = .ok .eor := by decide

theorem test_decode_commit : decode ⟨0x2E000000, 0⟩ = .ok .commit := by decide

/-- V83: `RDRAW 255`, `OPC = 0010_1111`, `A = 1111_1111`. -/
theorem test_decode_rdraw : decode ⟨0b00101111111111110000000000000000, 0⟩ = .ok (.rdraw 255) := by decide

theorem test_decode_rdstat : decode ⟨0x30000000, 0⟩ = .ok .rdstat := by decide

/-- V12 to V15, V41, V60, V86, V89, R-4: a non-zero field the command does not use. -/
theorem test_decode_unused_field :
    ([0x04000002, 0x02010000, 0x03000100, 0x02000001, 0x05040701, 0x0A010000, 0x21010000, 0x2F000100, 0x25000001] :
      List CmdWord).all (fun cw => decode ⟨cw, 0⟩ == .error .unusedFieldNonzero) = true := by decide

/-- V87, V88, R-3: opcodes outside the map. -/
theorem test_decode_unknown_opcode :
    ([0x00000000, 0x31000000, 0xFF000000, 0x0C000000, 0x1F123456] : List CmdWord).all
      (fun cw => decode ⟨cw, 0⟩ == .error .unknownOpcode) = true := by decide

/-- A table word of 32 bits has a zero operand. -/
theorem test_decode_table_word : decodeTableWord 32 0x01000000 = some (.set 0) := by decide

/-! ## Single steps -/

/-- An entry put on the stack. -/
def pushed (s : State) (v : Entry) : State :=
  if room : s.edepth.val < Config.thisHardware.stackDepth then s.push v room else s

/-- A small state: VALUE, the live entries, EERR and RAW. -/
def stateOf (value : Word) (entries : List Int) (eerr : Code) (raw : Int) : State :=
  { (entries.map (BitVec.ofInt 128)).foldl pushed State.reset with
    value := value, eerr := eerr, raw := BitVec.ofInt 128 raw }

/-- VALUE and the last response of a result. -/
def valueAfter : Result → Option (Word × Option Response)
  | .next t => some (t.value, t.responses.getLast?)
  | .fault _ => none
  | .refused _ => none

/-- The live entries, EERR and the last response of a result. -/
def stackAfter : Result → Option (List Int × Code × Option Response)
  | .next t => some (t.live.map BitVec.toInt, t.eerr, t.responses.getLast?)
  | .fault _ => none
  | .refused _ => none

/-- V1. -/
theorem test_set : valueAfter (exec (.set 0xFFFFFFFFFFFFFFFF) (stateOf 0 [] 0 0)) =
    some (0xFFFFFFFFFFFFFFFF, some ⟨0, 0⟩) := by decide

/-- V2. -/
theorem test_get : valueAfter (exec .get (stateOf 0xFF [] 0 0)) = some (0xFF, some ⟨0, 0xFF⟩) := by decide

/-- V3. -/
theorem test_getb_top : valueAfter (exec (.getb 63) (stateOf 0x8000000000000000 [] 0 0)) =
    some (0x8000000000000000, some ⟨0, 1⟩) := by decide

/-- V5. -/
theorem test_getb_out_of_range : valueAfter (exec (.getb 64) (stateOf 0x8000000000000000 [] 0 0)) =
    some (0x8000000000000000, some ⟨3, 0⟩) := by decide

/-- V7. -/
theorem test_setb_top : valueAfter (exec (.setb 63 true) (stateOf 0 [] 0 0)) =
    some (0x8000000000000000, some ⟨0, 0⟩) := by decide

/-- V8. -/
theorem test_setb_clears : valueAfter (exec (.setb 0 false) (stateOf 0xFF [] 0 0)) = some (0xFE, some ⟨0, 0⟩) := by
  decide

/-- V21. -/
theorem test_rmask_swapped : valueAfter (exec (.rmask 7 4) (stateOf 0x1234 [] 0 0)) =
    some (0x1234, some ⟨0, 0xF0⟩) := by decide

/-- V26. -/
theorem test_rmask_out_of_range : valueAfter (exec (.rmask 200 3) (stateOf 0 [] 0 0)) = some (0, some ⟨3, 0⟩) := by
  decide

/-- V28. -/
theorem test_extr_swapped : valueAfter (exec (.extr 7 4) (stateOf 0xABCD [] 0 0)) = some (0xC, some ⟨0, 0⟩) := by
  decide

/-- V31. -/
theorem test_extr_logical : valueAfter (exec (.extr 60 63) (stateOf 0xF000000000000000 [] 0 0)) =
    some (0xF, some ⟨0, 0⟩) := by decide

/-- V32. -/
theorem test_zero : valueAfter (exec (.zero 4 7) (stateOf 0xFF [] 0 0)) = some (0xF, some ⟨0, 0⟩) := by decide

/-- V35. -/
theorem test_one_all : valueAfter (exec (.one 0 63) (stateOf 0 [] 0 0)) =
    some (0xFFFFFFFFFFFFFFFF, some ⟨0, 0⟩) := by decide

/-- V37. -/
theorem test_togl : valueAfter (exec (.togl 4 7) (stateOf 0x5A [] 0 0)) = some (0xAA, some ⟨0, 0⟩) := by decide

/-- V52. -/
theorem test_shl_63 : valueAfter (exec (.shl 63) (stateOf 3 [] 0 0)) =
    some (0x8000000000000000, some ⟨0, 0⟩) := by decide

/-- V54. -/
theorem test_shl_largest : valueAfter (exec (.shl 4294967295) (stateOf 0xFFFFFFFFFFFFFFFF [] 0 0)) =
    some (0, some ⟨0, 0⟩) := by decide

/-- V57. -/
theorem test_shr_logical : valueAfter (exec (.shr 1) (stateOf 0x8000000000000000 [] 0 0)) =
    some (0x4000000000000000, some ⟨0, 0⟩) := by decide

/-- V58. -/
theorem test_shr_64 : valueAfter (exec (.shr 64) (stateOf 0xFFFFFFFFFFFFFFFF [] 0 0)) =
    some (0, some ⟨0, 0⟩) := by decide

/-- V70. -/
theorem test_ebegin : stackAfter (exec .ebegin (stateOf 0 [1, 2, 3] 2 0)) = some ([], 0, some ⟨0, 0⟩) := by decide

/-- V71. -/
theorem test_push_unsigned : stackAfter (exec (.push 0xFFFFFFFFFFFFFFFF) (stateOf 0 [] 0 0)) =
    some ([18446744073709551615], 0, some ⟨0, 0⟩) := by decide

/-- V72. -/
theorem test_push_full : (stackAfter (exec (.push 1) (stateOf 0 (List.replicate 16 1) 0 0))).map (fun x => x.2) =
    some (6, some ⟨6, 0⟩) := by decide

/-- V100. -/
theorem test_eneg : stackAfter (exec .eneg (stateOf 0 [5] 0 0)) = some ([-5], 0, some ⟨0, 0⟩) := by decide

/-- V102. -/
theorem test_eneg_overflow : stackAfter (exec .eneg (stateOf 0 [-0x80000000000000000000000000000000] 0 0)) =
    some ([-0x80000000000000000000000000000000], 4, some ⟨4, 0⟩) := by decide

/-- V104. -/
theorem test_enot : stackAfter (exec .enot (stateOf 0 [0xFFFFFFFFFFFFFFFF] 0 0)) =
    some ([-0x10000000000000000], 0, some ⟨0, 0⟩) := by decide

/-- V107. -/
theorem test_emul_signs : stackAfter (exec .emul (stateOf 0 [-3, -3] 0 0)) = some ([9], 0, some ⟨0, 0⟩) := by decide

/-- V108. -/
theorem test_emul_overflow : stackAfter (exec .emul (stateOf 0 [0xFFFFFFFFFFFFFFFF, 0xFFFFFFFFFFFFFFFF] 0 0)) =
    some ([0xFFFFFFFFFFFFFFFF, 0xFFFFFFFFFFFFFFFF], 4, some ⟨4, 0⟩) := by decide

/-- V113. -/
theorem test_ediv_floor : stackAfter (exec .ediv (stateOf 0 [7, -2] 0 0)) = some ([-4], 0, some ⟨0, 0⟩) := by decide

/-- V118. -/
theorem test_ediv_zero : stackAfter (exec .ediv (stateOf 0 [5, 0] 0 0)) = some ([5, 0], 2, some ⟨2, 0⟩) := by decide

/-- V124. -/
theorem test_emod_sign : stackAfter (exec .emod (stateOf 0 [7, -2] 0 0)) = some ([-1], 0, some ⟨0, 0⟩) := by decide

/-- V126. -/
theorem test_emod_negative : stackAfter (exec .emod (stateOf 0 [-7, 3] 0 0)) = some ([2], 0, some ⟨0, 0⟩) := by decide

/-- V131. -/
theorem test_eadd_wide : stackAfter (exec .eadd (stateOf 0 [0xFFFFFFFFFFFFFFFF, 1] 0 0)) =
    some ([0x10000000000000000], 0, some ⟨0, 0⟩) := by decide

/-- V132. -/
theorem test_eadd_overflow : stackAfter (exec .eadd (stateOf 0 [0x7FFFFFFFFFFFFFFFFFFFFFFFFFFFFFFF, 1] 0 0)) =
    some ([0x7FFFFFFFFFFFFFFFFFFFFFFFFFFFFFFF, 1], 4, some ⟨4, 0⟩) := by decide

/-- V133: the left operand is the one below the top. -/
theorem test_esub_order : stackAfter (exec .esub (stateOf 0 [1, 2] 0 0)) = some ([-1], 0, some ⟨0, 0⟩) := by decide

/-- V140. -/
theorem test_eshl_least : stackAfter (exec .eshl (stateOf 0 [-1, 0x7F] 0 0)) =
    some ([-0x80000000000000000000000000000000], 0, some ⟨0, 0⟩) := by decide

/-- V141. -/
theorem test_eshl_zero_far : stackAfter (exec .eshl (stateOf 0 [0, 0x186A0] 0 0)) =
    some ([0], 0, some ⟨0, 0⟩) := by decide

/-- V146. -/
theorem test_eshr_arithmetic : stackAfter (exec .eshr (stateOf 0 [-5, 1] 0 0)) =
    some ([-3], 0, some ⟨0, 0⟩) := by decide

/-- V148. -/
theorem test_eshr_far : stackAfter (exec .eshr (stateOf 0 [-5, 0x3E8] 0 0)) = some ([-1], 0, some ⟨0, 0⟩) := by decide

/-- V152. -/
theorem test_eand : stackAfter (exec .eand (stateOf 0 [-8, 0xFF] 0 0)) = some ([0xF8], 0, some ⟨0, 0⟩) := by decide

/-- V157. -/
theorem test_exor : stackAfter (exec .exor (stateOf 0 [-1, 5] 0 0)) = some ([-6], 0, some ⟨0, 0⟩) := by decide

/-- V159. -/
theorem test_eor : stackAfter (exec .eor (stateOf 0 [-8, 7] 0 0)) = some ([-1], 0, some ⟨0, 0⟩) := by decide

/-- V163: the sticky error comes first and nothing changes. -/
theorem test_gated : stackAfter (exec .eadd (stateOf 0 [9, 1, 2] 2 0)) = some ([9, 1, 2], 2, some ⟨2, 0⟩) := by decide

/-- V76. -/
theorem test_commit_negative : valueAfter (exec .commit (stateOf 0x77 [-1] 0 0)) =
    some (0xFFFFFFFFFFFFFFFF, some ⟨0, 0xFFFFFFFFFFFFFFFF⟩) := by decide

/-- V75. -/
theorem test_commit_two_results : stackAfter (exec .commit (stateOf 0x77 [1, 2] 0 0)) =
    some ([1, 2], 1, some ⟨1, 0⟩) := by decide

/-- V81. -/
theorem test_rdraw_high : valueAfter (exec (.rdraw 1) (stateOf 0 [] 0 0x10000000000000000)) =
    some (0, some ⟨0, 1⟩) := by decide

/-- V83. -/
theorem test_rdraw_sign_fill : valueAfter (exec (.rdraw 255) (stateOf 0 [] 0 (-5))) =
    some (0, some ⟨0, 0xFFFFFFFFFFFFFFFF⟩) := by decide

/-- V85. -/
theorem test_rdstat : stackAfter (exec .rdstat (stateOf 0 [5, 0] 2 0)) = some ([5, 0], 2, some ⟨0, 0x202⟩) := by decide

/-- V87: an illegal command on the port. -/
theorem test_illegal : stackAfter (step ((stateOf 0 [5] 0 0).presentNext (.command ⟨0, 0⟩))) =
    some ([5], 0, some ⟨7, 0⟩) := by decide

/-- R-1: a reset on the port. -/
theorem test_reset : stackAfter (step ((stateOf 0x5A [1, 2] 2 (-1)).presentNext (.reset none))) =
    some ([], 0, none) := by decide

/-! ## The host translator and the displays -/

/-- E1. -/
theorem test_translate : translate "0x10 + 2*3".toList =
    some [.ebegin, .push 0x10, .push 2, .push 3, .emul, .eadd, .commit] := by decide +kernel

/-- E26: a chunked literal. -/
theorem test_translate_wide : translate "18446744073709551616".toList =
    some [.ebegin, .push 1, .push 64, .eshl, .push 0, .eor, .commit] := by decide +kernel

/-- E42, E43, E44, E46, E47, E48, E51: ParseError, and no command. -/
theorem test_translate_errors :
    ["2 ** 3", "(1", "1 2", "+5", "0x", "1_000", "1 < 2"].all (fun t => translate t.toList == none) = true := by decide +kernel

/-- R90, R94. -/
theorem test_display : toHex 0xBEF = "BEF".toList ∧ showRaw (cfg := Config.thisHardware) (BitVec.ofInt 128 (-4)) = "-4".toList := by decide +kernel

theorem test_assemble : assembleLine "ZERO 4, 7".toList = .instrs [.zero 4 7] := by decide +kernel

/-- EVAL of a text outside the language issues no command (R61). -/
theorem test_assemble_parse_error : assembleLine "EVAL \"5/0 +\"".toList = .parseError := by decide +kernel

/-! ## The statements' hypotheses are met

One theorem for each statement with hypotheses: concrete values that meet them, clause by clause, at the ends of their
ranges. -/

/-- DecodeEncodeRoundTrip. -/
theorem test_hyp_round_trip :
    (Instr.getb 255).wf = true ∧ (Instr.rmask 0 255).wf = true ∧ (Instr.shl 4294967295).wf = true ∧
      (Instr.rdraw 0).wf = true ∧ Instr.ediv.wf = true := by decide

/-- DecodedWordIsItsEncoding. -/
theorem test_hyp_decoded : decode ⟨0x04FF0001, 7⟩ = .ok (.setb 255 true) := by decide

/-- DecodeReadsOperandOnlyWhereNamed, both clauses. -/
theorem test_hyp_operand_named :
    opcField 0x03000000 ∉ ([0x01, 0x0A, 0x0B, 0x21] : List Field8) ∧
      opcField 0x0A000000 ∈ ([0x0A, 0x0B] : List Field8) ∧ opcField 0x0B000000 ∈ ([0x0A, 0x0B] : List Field8) ∧
      (0x100000004 : Word).toNat % 2 ^ 32 = (4 : Word).toNat % 2 ^ 32 := by decide

/-- IllegalCommandRaisesAndChangesNothing: both reasons, the ends of the opcode ranges, and an illegal word on the port. -/
theorem test_hyp_illegal :
    decode ⟨0x25000001, 0⟩ = .error .unusedFieldNonzero ∧ decode ⟨0, 0⟩ = .error .unknownOpcode ∧
      opcField 0x00000000 = 0x00 ∧ (opcField 0x0C000000).toNat = 0x0C ∧ (opcField 0x1F123456).toNat = 0x1F ∧
      (opcField 0x31000000).toNat = 0x31 ∧ (opcField 0xFF000000).toNat = 0xFF ∧
      ((stateOf 1 [5] 2 0).presentNext (.command ⟨0x25000001, 0⟩)).inputs = [.command ⟨0x25000001, 0⟩] ∧
      ∀ r ∈ rows, (0x25000001 : CmdWord) &&& r.mask ≠ r.pattern := by decide

/-- StepRunsDecodedInstruction and OneResponsePerCommand. -/
theorem test_hyp_step_runs :
    (State.reset.presentNext (.command ⟨0x21000000, 16⟩)).inputs = [.command ⟨0x21000000, 16⟩] ∧
      decode ⟨0x21000000, 16⟩ = .ok (.push 16) := by decide

/-- TableWordRunsNext. -/
theorem test_hyp_table_word : decodeTableWord 32 0x033F0000 = some (.getb 63) := by decide

/-- WaitsWithNoCommand. -/
theorem test_hyp_waits : State.reset.inputs = [] := rfl

/-- ResetClearsTheUnit, with a command cut short. -/
theorem test_hyp_reset :
    ((stateOf 9 [1] 1 3).presentNext (.reset (some ⟨0x01000000, 5⟩))).inputs = [.reset (some ⟨0x01000000, 5⟩)] := by
  decide

/-- StepKeepsInvariant: a state with an error latched, and a command that answers a next state there. -/
theorem test_hyp_invariant :
    ((stateOf 9 [1] 2 3).presentNext (.command ⟨0x2E000000, 0⟩)).inv = true ∧
      stackAfter (step ((stateOf 9 [1] 2 3).presentNext (.command ⟨0x2E000000, 0⟩))) =
        some ([1], 2, some ⟨2, 0⟩) := by decide

/-- OnlyEbeginLeavesErrorState. -/
theorem test_hyp_error_state : (stateOf 0 [1, 2] 6 0).eerr ≠ 0 ∧ Instr.push 1 ≠ .ebegin ∧ Instr.set 1 ≠ .ebegin := by
  decide

/-- RegisterAndEvaluatorStateDisjoint and RegisterCommandKeepsEvaluation. -/
theorem test_hyp_families :
    (Instr.togl 0 63).isRegister = true ∧ (Instr.eadd).isRegister = false ∧ Instr.eadd ≠ .commit := by decide

/-- DeadEntriesNeverObservable: two states that differ, in an entry above EDEPTH alone. -/
theorem test_hyp_same_observable :
    SameObservable (stateOf 7 [5] 0 0) { stateOf 7 [5, 6] 0 0 with edepth := 1 } ∧
      stateOf 7 [5] 0 0 ≠ { stateOf 7 [5, 6] 0 0 with edepth := 1 } := by
  unfold SameObservable; decide

/-- BitIndexChecked, GetbReadsBit, SetbWritesBit, and the encodings' ranges. -/
theorem test_hyp_index : 63 < 64 ∧ 63 ≤ 63 ∧ 0 ≤ 63 ∧ 255 < 256 := by decide

/-- RangeBoundsChecked, RmaskReturnsRangeMask, RangeMaskBitCount, ExtrExtractsRange, ExtrIsMaskThenShift and
ZeroOneToglChangeTheRange: either bound out of range, or both in range. -/
theorem test_hyp_range : (63 < 64 ∨ 63 < 0) ∧ (63 < 0 ∨ 63 < 255) ∧ 63 ≤ 63 ∧ 0 ≤ 63 ∧
    (min 63 4 ≤ 4 ∧ 4 ≤ max 63 4) ∧ ¬ (min 63 4 ≤ 3 ∧ 3 ≤ max 63 4) := by decide

/-- ShiftsAreExactThenMasked and ShiftsSaturateToZero. -/
theorem test_hyp_amount : 4294967295 < 2 ^ 32 ∧ 64 ≤ 64 := by decide

/-- GatedCommandsBlocked, both clauses. -/
theorem test_hyp_gated : Instr.commit.isGated = true ∧ (Instr.push 3).isGated = true ∧ (stateOf 0 [] 1 0).eerr ≠ 0 ∧
    (Instr.rdraw 2 = .ebegin ∨ (∃ k, Instr.rdraw 2 = .rdraw k) ∨ Instr.rdraw 2 = .rdstat) :=
  ⟨by decide, by decide, by decide, .inr (.inl ⟨2, rfl⟩)⟩

/-- PushPushesLiteral: a sticky error, a full stack, and the last free entry. -/
theorem test_hyp_push :
    (stateOf 0 [] 6 0).eerr ≠ 0 ∧
      ((stateOf 0 (List.replicate 16 1) 0 0).eerr = 0 ∧ (stateOf 0 (List.replicate 16 1) 0 0).edepth.val = 16) ∧
      (stateOf 0 (List.replicate 15 1) 0 0).eerr = 0 ∧ (stateOf 0 (List.replicate 15 1) 0 0).edepth.val < 16 := by
  decide

/-- FirstErrorReportedToTheEnd. -/
theorem test_hyp_first_error : (stateOf 0 [5, 0] 2 0).inputs = [] ∧ (stateOf 0 [5, 0] 2 0).eerr ≠ 0 ∧
    (∀ i ∈ [Instr.push 1, .togl 0 7, .rdstat, .commit], i ≠ .ebegin ∧ i.wf = true) ∧
    [Instr.push 1, .togl 0 7, .rdstat, .commit][3]? = some .commit ∧ Instr.commit.isGated = true ∧
    ∀ i ∈ [Instr.push 1, .rdstat, .commit], i.isRegister = false := by decide

/-- EbeginOnIdleChangesNothing. -/
theorem test_hyp_idle : (stateOf 9 [] 0 5).idle = true := by decide

/-- CommitStoresResult, its three clauses, and RdrawReadsChunk's last clause. -/
theorem test_hyp_commit :
    (stateOf 0 [1] 4 0).eerr ≠ 0 ∧ ((stateOf 0 [] 0 0).eerr = 0 ∧ (stateOf 0 [] 0 0).edepth.val ≠ 1) ∧
      ((stateOf 0 [1, 2] 0 0).eerr = 0 ∧ (stateOf 0 [1, 2] 0 0).edepth.val ≠ 1) ∧
      (stateOf 0 [-1] 0 0).eerr = 0 ∧ (stateOf 0 [-1] 0 0).live = [BitVec.ofInt 128 (-1)] ∧
      (stateOf 0 [-1] 0 0).edepth.val = 1 := by decide

/-- RdrawReadsChunk: a bit below and a bit above `EVAL_WIDTH`, and the last chunk number. -/
theorem test_hyp_rdraw : 255 < 256 ∧ 63 < 64 ∧ 64 * 1 + 63 < 128 ∧ ¬ (64 * 2 + 0 < 128) := by decide

/-- ChecksOperands, in each of the operator statements: a sticky error, and one operand too few. -/
theorem test_hyp_operands :
    (stateOf 0 [1, 2] 5 0).eerr ≠ 0 ∧ ((stateOf 0 [] 0 0).eerr = 0 ∧ (stateOf 0 [] 0 0).edepth.val < 1) ∧
      (stateOf 0 [1] 0 0).eerr = 0 ∧ (stateOf 0 [1] 0 0).edepth.val < 2 := by decide

/-- EnegEnotRule: the least entry and another. -/
theorem test_hyp_unary :
    (stateOf 0 [3, -0x80000000000000000000000000000000] 0 0).eerr = 0 ∧
      (stateOf 0 [3, -0x80000000000000000000000000000000] 0 0).live =
        [BitVec.ofInt 128 3] ++ [BitVec.ofInt 128 (-0x80000000000000000000000000000000)] ∧
      (BitVec.ofInt 128 (-0x80000000000000000000000000000000)).toInt = -0x80000000000000000000000000000000 ∧
      (stateOf 0 [5] 0 0).eerr = 0 ∧ (stateOf 0 [5] 0 0).live = [] ++ [BitVec.ofInt 128 5] ∧ (BitVec.ofInt 128 5).toInt = 5 := by decide

/-- EmulEaddEsubRule, EdivEmodRule, EshlEshrRule and EandExorEorRule: states with no sticky error and two live entries on
top, for pairs that meet each of the clauses (the next three theorems say which). -/
theorem test_hyp_binary : ([(7, -2), (5, 0), (-0x80000000000000000000000000000000, -1), (1, -1), (-1, 127), (1, 127),
      (0x7FFFFFFFFFFFFFFFFFFFFFFFFFFFFFFF, 1), (-0x80000000000000000000000000000000, 1),
      (0xFFFFFFFFFFFFFFFF, 0xFFFFFFFFFFFFFFFF)] : List (Int × Int)).all (fun p =>
    (stateOf 0 [9, p.1, p.2] 0 0).eerr == 0 &&
      (stateOf 0 [9, p.1, p.2] 0 0).live == [BitVec.ofInt 128 9] ++ [BitVec.ofInt 128 p.1, BitVec.ofInt 128 p.2] &&
      (BitVec.ofInt 128 p.1).toInt == p.1 && (BitVec.ofInt 128 p.2).toInt == p.2) = true := by decide

/-- EmulEaddEsubRule: results in range and out of range, at the ends. -/
theorem test_hyp_in_range :
    InRange (7 * -2) ∧ InRange (7 + -2) ∧ InRange (2 ^ 127 - 1 - 1) ∧ InRange (-(2 ^ 127) + 1) ∧
      InRange (-(2 ^ 127) * 1) ∧ ¬ InRange (2 ^ 127 - 1 + 1) ∧ ¬ InRange (-(2 ^ 127) - 1) ∧ ¬ InRange ((2 ^ 64 - 1) * (2 ^ 64 - 1)) := by norm_num [InRange]

/-- EdivEmodRule: a zero divisor, the one overflow, and another pair. -/
theorem test_hyp_division :
    (BitVec.ofInt 128 0).toInt = 0 ∧ (BitVec.ofInt 128 (-0x80000000000000000000000000000000)).toInt =
      -0x80000000000000000000000000000000 ∧ (BitVec.ofInt 128 (-1)).toInt = -1 ∧ (BitVec.ofInt 128 (-2)).toInt ≠ 0 := by
  decide

/-- EshlEshrRule: a negative count, and a shift in range and one out of range at count 127. -/
theorem test_hyp_shift_count :
    (BitVec.ofInt 128 (-1)).toInt < 0 ∧ 0 ≤ (BitVec.ofInt 128 127).toInt ∧ InRange (-1 * 2 ^ 127) ∧
      ¬ InRange (1 * 2 ^ 127) := by
  refine ⟨by decide, by decide, ?_, ?_⟩ <;> norm_num [InRange]

/-- LowBitsDependOnLowBits, a unary clause: -1 and 2^64 - 1 have the same low 64 bits, and ENEG succeeds on both. -/
theorem test_hyp_low_bits_unary : SameLowBits (BitVec.ofInt 128 (-1)) (BitVec.ofInt 128 0xFFFFFFFFFFFFFFFF) ∧
    stackAfter (exec .eneg (stateOf 0 [-1] 0 0)) = some ([1], 0, some ⟨0, 0⟩) ∧
    stackAfter (exec .eneg (stateOf 0 [0xFFFFFFFFFFFFFFFF] 0 0)) = some ([-0xFFFFFFFFFFFFFFFF], 0, some ⟨0, 0⟩) := by
  unfold SameLowBits; decide

/-- LowBitsDependOnLowBits, the binary clause: operands that differ above bit 63, for EMUL and, with one count, for ESHL. -/
theorem test_hyp_low_bits_binary : SameLowBits (BitVec.ofInt 128 0x10000000000000003) (BitVec.ofInt 128 3) ∧
    stackAfter (exec .emul (stateOf 0 [0x10000000000000003, 2] 0 0)) = some ([0x20000000000000006], 0, some ⟨0, 0⟩) ∧
    stackAfter (exec .emul (stateOf 0 [3, 2] 0 0)) = some ([6], 0, some ⟨0, 0⟩) ∧
    stackAfter (exec .eshl (stateOf 0 [0x10000000000000003, 1] 0 0)) = some ([0x20000000000000006], 0, some ⟨0, 0⟩) ∧
    stackAfter (exec .eshl (stateOf 0 [3, 1] 0 0)) = some ([6], 0, some ⟨0, 0⟩) := by unfold SameLowBits; decide

/-- WidthAndDepthAreArguments: the least width and depth R6 admits, with an empty, a full and a two-entry stack there. -/
theorem test_hyp_parameters :
    let cfg : Params := ⟨65, 2, 0, by decide, by decide, by decide⟩
    (State.initial cfg).eerr = 0 ∧ (State.initial cfg).edepth.val < cfg.stackDepth ∧
      ((State.initial cfg).push 3 (by decide)).edepth.val < cfg.stackDepth ∧
      (((State.initial cfg).push 3 (by decide)).push 5 (by decide)).edepth.val = cfg.stackDepth ∧
      (((State.initial cfg).push 3 (by decide)).push 5 (by decide)).live = [] ++ [3, 5] ∧
      InRange ((3 : Entry cfg).toInt * (5 : Entry cfg).toInt) cfg := by decide

/-- LiteralCommandsPushItsValue: the last free entries, a literal that fits and one that does not. -/
theorem test_hyp_literal :
    (stateOf 0 (List.replicate 14 1) 0 0).inputs = [] ∧ (stateOf 0 (List.replicate 14 1) 0 0).eerr = 0 ∧
      (stateOf 0 (List.replicate 14 1) 0 0).edepth.val + (Expr.lit 0x80000000000000000000000000000000).need ≤ 16 ∧
      InRange 0x7FFFFFFFFFFFFFFFFFFFFFFFFFFFFFFF ∧ ¬ InRange 0x80000000000000000000000000000000 := by
  refine ⟨by decide, by decide, by decide, ?_, ?_⟩ <;> norm_num [InRange]

/-- EvaluationAgreesWithReference: an expression that succeeds. -/
theorem test_hyp_evaluation_succeeds :
    State.reset.inputs = [] ∧ State.reset.idle = true ∧
      (Expr.bin .add (.lit 16) (.bin .mul (.lit 2) (.lit 3))).meaning = .ok 22 ∧
      (Expr.bin .add (.lit 16) (.bin .mul (.lit 2) (.lit 3))).within Config.thisHardware = true ∧
      (Expr.bin .add (.lit 16) (.bin .mul (.lit 2) (.lit 3))).need ≤ 16 := by decide

/-- EvaluationAgreesWithReference: an expression that fails. -/
theorem test_hyp_evaluation_fails :
    State.reset.inputs = [] ∧ State.reset.idle = true ∧
    ¬ ∃ v, (Expr.bin .div (.lit 5) (.lit 0)).meaning = .ok v ∧
      (Expr.bin .div (.lit 5) (.lit 0)).within Config.thisHardware = true ∧
      (Expr.bin .div (.lit 5) (.lit 0)).need ≤ 16 := by
  refine ⟨rfl, rfl, ?_⟩
  rintro ⟨v, h, -⟩
  exact absurd h (by simp [Expr.meaning, BinaryOp.apply])

/-- ParserFollowsTheGrammar. -/
theorem test_hyp_parse : parse [.minus, .lit 7, .slash, .lit 2] = some (.bin .div (.un .neg (.lit 7)) (.lit 2)) := by
  decide +kernel

/-- ParserFindsEveryDerivation: the grammar derives `1 - 2 - 3` as `(1 - 2) - 3` (E3). -/
theorem test_hyp_derives :
    Derives 0 [.lit 1, .minus, .lit 2, .minus, .lit 3]
      (.bin .sub (.bin .sub (.lit 1) (.lit 2)) (.lit 3)) := by
  have operand : ∀ n, Derives 5 [.lit n] (.lit n) := fun n => .up (by decide) (.primary (.lit n))
  refine .up (by decide) (.up (by decide) (.up (by decide) (.up (by decide) ?_)))
  exact .binary (t := .minus) (ts := [.lit 1, .minus, .lit 2]) rfl
    (.binary (t := .minus) (ts := [.lit 1]) rfl (.up (by decide) (operand 1)) (operand 2)) (operand 3)

/-- PseudoInstructionsExpand: a text of the language and one outside it. -/
theorem test_hyp_eval_texts : parseText "7".toList = some (.lit 7) ∧ parseText "5/0 +".toList = none := by decide +kernel

/-- DisplayReadsBack and DecimalRenderingEvaluatesToItself. -/
theorem test_hyp_display : (255 : Word) ≠ 0 ∧ (5 : Entry) ≠ 0 ∧ State.reset.inputs = [] ∧ (BitVec.ofInt 128 (-4)).toInt < 0 := by decide

end Sys2Proof.Tests
end

section
/-! # The scope statements (00_scope.md): the bounded evaluation against the reference, and the parameters of R6

First the equations and inversions of the host-side evaluation functions, one per function and constructor; then what the
shared operations do at any parameters; then the two obligations. -/

namespace Sys2Proof.Machine

variable {cfg : Params}

/-! ## The reference meaning, the width condition and the bounded evaluation -/

theorem meaning_un_eq_ok_iff {u : UnaryOp} {e : Expr} {v : Int} :
    (Expr.un u e).meaning = .ok v ↔ ∃ a, e.meaning = .ok a ∧ u.apply a = v := by
  cases h : e.meaning <;> simp [Expr.meaning, h]

theorem meaning_bin_eq_ok_iff {o : BinaryOp} {l r : Expr} {v : Int} :
    (Expr.bin o l r).meaning = .ok v ↔
      ∃ a b, l.meaning = .ok a ∧ r.meaning = .ok b ∧ o.apply a b = .ok v := by
  cases hl : l.meaning <;> cases hr : r.meaning <;> simp [Expr.meaning, hl, hr]

/-- Where the operand has a value, the translation of a unary expression pushes the result on top of what the operand's
pushes (R83). -/
theorem within_un_iff {u : UnaryOp} {e : Expr} {a : Int} (h : e.meaning = .ok a) :
    (Expr.un u e).within cfg = true ↔ e.within cfg = true ∧ fits cfg (u.apply a) = true := by
  simp [Expr.within, h]

/-- Where a binary expression has a value, its translation pushes the result on top of what both operands' push (R83). -/
theorem within_bin_iff {o : BinaryOp} {l r : Expr} {v : Int} (h : (Expr.bin o l r).meaning = .ok v) :
    (Expr.bin o l r).within cfg = true ↔
      l.within cfg = true ∧ r.within cfg = true ∧ fits cfg v = true := by
  simp [Expr.within, h, and_assoc]

theorem bounded_lit_eq_ok_iff {room n : Nat} {v : Int} :
    (Expr.lit n).bounded cfg room = .ok v ↔
      (n : Int) = v ∧ fits cfg n = true ∧ (Expr.lit n).need ≤ room := by
  by_cases hroom : room < (Expr.lit n).need
  · simp [Expr.bounded, hroom]
  · by_cases hfits : fits cfg n = true <;> simp [Expr.bounded, hroom, hfits, Nat.le_of_not_lt hroom]

theorem bounded_un_eq_ok_iff {u : UnaryOp} {e : Expr} {room : Nat} {v : Int} :
    (Expr.un u e).bounded cfg room = .ok v ↔
      ∃ a, e.bounded cfg room = .ok a ∧ fits cfg (u.apply a) = true ∧ u.apply a = v := by
  cases he : e.bounded cfg room with
  | error x => simp [Expr.bounded, he]
  | ok a => by_cases hfits : fits cfg (u.apply a) = true <;> simp [Expr.bounded, he, hfits]

/-- The right operand is evaluated with one entry less, the one the left operand's value takes. -/
theorem bounded_bin_eq_ok_iff {o : BinaryOp} {l r : Expr} {room : Nat} {v : Int} :
    (Expr.bin o l r).bounded cfg room = .ok v ↔
      ∃ a b, l.bounded cfg room = .ok a ∧ r.bounded cfg (room - 1) = .ok b ∧ o.apply a b = .ok v ∧
        fits cfg v = true := by
  cases hl : l.bounded cfg room with
  | error x => simp [Expr.bounded, hl]
  | ok a =>
    cases hr : r.bounded cfg (room - 1) with
    | error x => simp [Expr.bounded, hl, hr]
    | ok b =>
      cases ho : o.apply a b with
      | error x => simp [Expr.bounded, hl, hr, ho]
      | ok w =>
        cases hfits : fits cfg w
        · simpa [Expr.bounded, hl, hr, ho, hfits] using fun h => h ▸ hfits
        · simpa [Expr.bounded, hl, hr, ho, hfits] using fun h => h ▸ hfits

/-- Every expression pushes at least its own value. -/
theorem need_pos (e : Expr) : 0 < e.need := by
  induction e with
  | lit n => simp only [Expr.need]; split <;> omega
  | un u e ih => exact ih
  | bin o l r ihl ihr => exact lt_of_lt_of_le ihl (Nat.le_max_left _ _)

/-- A binary expression needs what its left operand needs, and what its right operand needs in one entry less (R81). No
room at all is too little for the left operand already, so the truncated `0 - 1` admits nothing more. -/
theorem need_bin_le_iff {o : BinaryOp} {l r : Expr} {room : Nat} :
    (Expr.bin o l r).need ≤ room ↔ l.need ≤ room ∧ r.need ≤ room - 1 := by
  have := need_pos l
  simp only [Expr.need, Nat.max_le]
  omega

/-- Settles O53, by induction on the expression, for every room and value at once. -/
theorem boundedEvaluationIsTheReference : Obligations.BoundedEvaluationIsTheReference := by
  unfold Obligations.BoundedEvaluationIsTheReference
  intro cfg e
  induction e with
  | lit n =>
    intro room v
    rw [bounded_lit_eq_ok_iff]
    simp [Expr.meaning, Expr.within]
  | un u e ih =>
    intro room v
    rw [bounded_un_eq_ok_iff]
    constructor
    · rintro ⟨a, he, hfits, hv⟩
      obtain ⟨hm, hw, hneed⟩ := (ih room a).1 he
      exact ⟨meaning_un_eq_ok_iff.2 ⟨a, hm, hv⟩, (within_un_iff hm).2 ⟨hw, hfits⟩, hneed⟩
    · rintro ⟨hm, hw, hneed⟩
      obtain ⟨a, ha, hv⟩ := meaning_un_eq_ok_iff.1 hm
      obtain ⟨hwe, hfits⟩ := (within_un_iff ha).1 hw
      exact ⟨a, (ih room a).2 ⟨ha, hwe, hneed⟩, hfits, hv⟩
  | bin o l r ihl ihr =>
    intro room v
    rw [bounded_bin_eq_ok_iff, need_bin_le_iff]
    constructor
    · rintro ⟨a, b, hl, hr, hv, hfits⟩
      obtain ⟨hma, hwl, hnl⟩ := (ihl room a).1 hl
      obtain ⟨hmb, hwr, hnr⟩ := (ihr (room - 1) b).1 hr
      have hm := meaning_bin_eq_ok_iff.2 ⟨a, b, hma, hmb, hv⟩
      exact ⟨hm, (within_bin_iff hm).2 ⟨hwl, hwr, hfits⟩, hnl, hnr⟩
    · rintro ⟨hm, hw, hnl, hnr⟩
      obtain ⟨a, b, hma, hmb, hv⟩ := meaning_bin_eq_ok_iff.1 hm
      obtain ⟨hwl, hwr, hfits⟩ := (within_bin_iff hm).1 hw
      exact ⟨a, b, (ihl room a).2 ⟨hma, hwl, hnl⟩, (ihr (room - 1) b).2 ⟨hmb, hwr, hnr⟩, hv, hfits⟩

/-! ## The shared operations at any parameters -/

/-- PUSH on a full stack latches and returns StackOverflow (R145). -/
theorem execPush_full {s : State cfg} (v : Word) (h0 : s.eerr = 0) (full : s.edepth.val = cfg.stackDepth) :
    execPush v s = .next ((s.latch .stackOverflow).respond Err.stackOverflow.code 0) := by
  rcases execPush_cases s v with ⟨h, -⟩ | ⟨-, -, h⟩ | ⟨-, room, -⟩
  · exact absurd h0 h
  · exact h
  · exact absurd full room.ne

/-- PUSH with a free entry pushes the zero-extended literal (R145). -/
theorem execPush_room {s : State cfg} (v : Word) (h0 : s.eerr = 0) (room : s.edepth.val < cfg.stackDepth) :
    execPush v s = .next ((s.push (v.setWidth cfg.evalWidth) room).respond 0 0) := by
  rcases execPush_cases s v with ⟨h, -⟩ | ⟨-, full, -⟩ | ⟨-, _, h⟩
  · exact absurd h0 h
  · exact absurd full room.ne
  · exact h

theorem finishOperator_of_inRange {r : Int} {s : State cfg} {store : Entry cfg → State cfg} (h : InRange r cfg) :
    finishOperator (.ok r) s store = .next ((store (BitVec.ofInt cfg.evalWidth r)).respond 0 0) := by
  rw [finishOperator, if_pos ((fits_iff_inRange r).2 h), respond_eq, okCode]

theorem finishOperator_of_not_inRange {r : Int} {s : State cfg} {store : Entry cfg → State cfg}
    (h : ¬ InRange r cfg) :
    finishOperator (.ok r) s store = .next ((s.latch .evalOverflow).respond Err.evalOverflow.code 0) := by
  rw [finishOperator, if_neg (mt (fits_iff_inRange r).1 h), efail_eq]

section
variable {f : Int → Int → Except Err Int} {s : State cfg} {pre : List (Entry cfg)} {a b : Entry cfg} {r : Int}

/-- A binary operator whose result fits replaces its two operands by exactly that result, and changes nothing else an
observer can see but the response (R142, R148). -/
theorem binop_of_inRange (h0 : s.eerr = 0) (hl : s.live = pre ++ [a, b]) (hf : f a.toInt b.toInt = .ok r)
    (hr : InRange r cfg) :
    ∃ t x, binop f s = .next t ∧ x.toInt = r ∧ t.live = pre ++ [x] ∧ t.value = s.value ∧ t.raw = s.raw ∧
      t.eerr = s.eerr ∧ t.inputs = s.inputs ∧ t.responses = s.responses ++ [⟨0, 0⟩] := by
  obtain ⟨store, hrun, hstore⟩ := binop_live (f := f) h0 hl
  obtain ⟨hlive, hvalue, hraw, heerr, hinputs, hresponses⟩ := hstore (BitVec.ofInt cfg.evalWidth r)
  refine ⟨(store (BitVec.ofInt cfg.evalWidth r)).respond 0 0, _, ?_,
    toInt_ofInt_of_fits ((fits_iff_inRange r).2 hr), hlive, hvalue, hraw, heerr, hinputs, ?_⟩
  · rw [hrun, hf, finishOperator_of_inRange hr]
  · rw [State.respond_responses, hresponses]

/-- A binary operator whose result does not fit latches and returns EvalOverflow (R141, R142). -/
theorem binop_of_not_inRange (h0 : s.eerr = 0) (hl : s.live = pre ++ [a, b]) (hf : f a.toInt b.toInt = .ok r)
    (hr : ¬ InRange r cfg) :
    binop f s = .next ((s.latch .evalOverflow).respond Err.evalOverflow.code 0) := by
  obtain ⟨store, hrun, -⟩ := binop_live (f := f) h0 hl
  rw [hrun, hf, finishOperator_of_not_inRange hr]

end

/-- Appended bit strings as numbers: the high part counts in units of the low part's range. -/
theorem toNat_append_eq_mul_add {m n : Nat} (x : BitVec m) (y : BitVec n) :
    (x ++ y).toNat = x.toNat * 2 ^ n + y.toNat := by
  rw [BitVec.toNat_append, ← Nat.shiftLeft_add_eq_or_of_lt y.isLt, Nat.shiftLeft_eq]

/-- RDSTAT's word shows EDEPTH and EERR whole: `STACK_DEPTH <= 255` keeps EDEPTH within its 8 bits (R6, R149). -/
theorem statusWord_toNat (s : State cfg) : (statusWord s).toNat = 256 * s.edepth.val + s.eerr.toNat := by
  have hdepth : s.edepth.val % 256 = s.edepth.val :=
    Nat.mod_eq_of_lt (by have := s.edepth_le; have := cfg.stackDepth_le; omega)
  simp only [statusWord, toNat_append_eq_mul_add, BitVec.ofNat_eq_ofNat, BitVec.toNat_ofNat,
    Nat.zero_mod, Nat.reducePow, hdepth]
  omega

/-- Settles O60: PUSH by its cases, EMUL as the binary operator of the exact product, RDSTAT by its word's value. -/
theorem widthAndDepthAreArguments : Obligations.WidthAndDepthAreArguments := by
  unfold Obligations.WidthAndDepthAreArguments
  intro cfg s h0
  refine ⟨fun v full => execPush_full v h0 full, fun v room => ?_, fun pre a b hl => ⟨fun hr => ?_, fun hr => ?_⟩,
    statusWord s, rfl, statusWord_toNat s⟩
  · exact ⟨_, v.setWidth cfg.evalWidth, execPush_room v h0 room, toInt_setWidth_word v, State.push_live s _ room,
      rfl, rfl, h0, rfl⟩
  · obtain ⟨t, x, hrun, hx, hlive, hvalue, hraw, heerr, -, hresponses⟩ :=
      binop_of_inRange (f := fun a b => .ok (a * b)) h0 hl rfl hr
    exact ⟨t, x, hrun, hx, hlive, hvalue, hraw, heerr.trans h0, hresponses⟩
  · exact binop_of_not_inRange (f := fun a b => .ok (a * b)) h0 hl rfl hr

end Sys2Proof.Machine
end

section
/-! # The state statements (10_state.md): what one command can do, and what follows of every step

First the decoder on an encoded instruction, and the port: what a step does with the host's next input. Then the two
families of R32: a register command's effect is a function of VALUE alone, and an evaluator command is one of seven forms,
which act on the live stack, EERR and RAW. From these follow `Effect`, everything a command can do, for the statements
about one run, and `SameEvaluation`, for the statements that compare two. -/

namespace Sys2Proof

/-! ## Decoding an encoded instruction -/

/-- The patterns of two rows differ in a bit both masks hold, so no word is selected by both (R54). -/
def Row.Clash (r q : Row) : Prop := r.pattern &&& q.mask ≠ q.pattern &&& r.mask

theorem Row.Clash.not_selects {r q : Row} (clash : r.Clash q) {cw : CmdWord} (hr : r.selects cw = true) :
    q.selects cw ≠ true := by
  intro hq
  rw [Row.selects, beq_iff_eq] at hr hq
  apply clash
  rw [← hr, ← hq, BitVec.and_assoc, BitVec.and_assoc, BitVec.and_comm q.mask]

theorem rows_clash : rows.Pairwise Row.Clash := by
  unfold Row.Clash
  decide

/-- The row of the opcode map that selects a word is the only one, so the decoder finds it (R54). -/
theorem decode_of_selects {r : Row} (hr : r ∈ rows) {c : Command} (h : r.selects c.cw = true) :
    decode c = .ok (r.make c.cw c.op) := by
  have found : (rows.find? fun q => q.selects c.cw).isSome = true := List.find?_isSome.2 ⟨r, hr, h⟩
  obtain ⟨q, hq⟩ := Option.isSome_iff_exists.1 found
  have selected : q.selects c.cw = true := List.find?_some (p := fun q : Row => q.selects c.cw) hq
  have symm : Std.Symm Row.Clash := ⟨fun _ _ clash => clash.symm⟩
  have unique : r = q := by
    by_contra hne
    exact (rows_clash.forall hr (List.mem_of_find?_eq_some hq) hne).not_selects h selected
  simp [decode, hq, unique]

/-- The row that an encoded instruction selects reads it back, instruction by instruction. -/
theorem encodingSelected : ∀ i : Instr, Laws.EncodingSelected.Statement i
  | .set v => Laws.EncodingSelected.set v
  | .get => Laws.EncodingSelected.get
  | .getb i => Laws.EncodingSelected.getb i
  | .setb i on => Laws.EncodingSelected.setb i on
  | .rmask a b => Laws.EncodingSelected.rmask a b
  | .extr a b => Laws.EncodingSelected.extr a b
  | .zero a b => Laws.EncodingSelected.zero a b
  | .one a b => Laws.EncodingSelected.one a b
  | .togl a b => Laws.EncodingSelected.togl a b
  | .shl n => Laws.EncodingSelected.shl n
  | .shr n => Laws.EncodingSelected.shr n
  | .ebegin => Laws.EncodingSelected.ebegin
  | .push v => Laws.EncodingSelected.push v
  | .eneg => Laws.EncodingSelected.eneg
  | .enot => Laws.EncodingSelected.enot
  | .emul => Laws.EncodingSelected.emul
  | .ediv => Laws.EncodingSelected.ediv
  | .emod => Laws.EncodingSelected.emod
  | .eadd => Laws.EncodingSelected.eadd
  | .esub => Laws.EncodingSelected.esub
  | .eshl => Laws.EncodingSelected.eshl
  | .eshr => Laws.EncodingSelected.eshr
  | .eand => Laws.EncodingSelected.eand
  | .exor => Laws.EncodingSelected.exor
  | .eor => Laws.EncodingSelected.eor
  | .commit => Laws.EncodingSelected.commit
  | .rdraw k => Laws.EncodingSelected.rdraw k
  | .rdstat => Laws.EncodingSelected.rdstat

/-- An encoded instruction decodes to itself (R60). -/
theorem decode_encode {i : Instr} (h : i.wf = true) : decode (encode i) = .ok i := by
  obtain ⟨r, hr, hsel, hmake⟩ := encodingSelected i h
  rw [decode_of_selects hr hsel, hmake]

end Sys2Proof

namespace Sys2Proof.Machine

variable {cfg : Params}

/-! ## The port -/

theorem step_reset {s : State} {cut : Option Command} {rest : List Input} (h : s.inputs = .reset cut :: rest) :
    step s = .next { State.reset with inputs := rest, responses := s.responses } := by
  simp [step, takeStep, State.takeInput, h, resetUnit, State.reset]

theorem step_waits {s : State} (h : s.inputs = []) : step s = .next s := by
  simp [step, takeStep, State.takeInput, h, waitForCommand]

theorem step_command {s : State} {c : Command} {i : Instr} {rest : List Input} (h : s.inputs = .command c :: rest)
    (hd : decode c = .ok i) : step s = exec i { s with inputs := rest } := by
  simp [step, takeStep, State.takeInput, h, hd]

theorem step_illegal {s : State} {c : Command} {why : IllegalReason} {rest : List Input}
    (h : s.inputs = .command c :: rest) (hd : decode c = .error why) :
    step s = .next (({ s with inputs := rest } : State).respond Err.illegalCommand.code 0) := by
  simp [step, takeStep, State.takeInput, h, hd, illegalCommand, raise_eq]

theorem decodeTableWord_eq_some_iff {nbits w : Nat} {i : Instr} :
    decodeTableWord nbits w = some i ↔ decode (commandOfTableWord nbits w) = .ok i := by
  cases h : decode (commandOfTableWord nbits w) <;> simp [decodeTableWord, h]

/-- Settles O7. -/
theorem stepRunsDecodedInstruction : Obligations.StepRunsDecodedInstruction := by
  unfold Obligations.StepRunsDecodedInstruction
  intro s c i rest h hd
  exact step_command h hd

/-- Settles O8: the table word's command is the first input, and taking it off the port gives back the state before. -/
theorem tableWordRunsNext : Obligations.TableWordRunsNext := by
  unfold Obligations.TableWordRunsNext
  intro s nbits w i h
  exact step_command (withFetchWord_inputs s nbits w) (decodeTableWord_eq_some_iff.1 h)

/-- Settles O10. -/
theorem resetClearsTheUnit : Obligations.ResetClearsTheUnit := by
  unfold Obligations.ResetClearsTheUnit
  refine ⟨fun s cut rest h => ⟨_, step_reset h, ?_⟩, ?_⟩ <;> simp

/-! ## The families -/

/-- Every gated command is an evaluator command (R32, R140). -/
theorem isRegister_of_isGated {i : Instr} : i.isGated = true → i.isRegister = false := by
  cases i <;> simp [Instr.isGated, Instr.isRegister]

/-- What a register command does is a function of VALUE alone (R32): VALUE becomes `v`, and the response is `r`. Where it
fails, it fails with RangeViolation and VALUE stays (R100, R110). -/
def ActsOnValue (run : State cfg → Result cfg) : Prop :=
  ∃ (v : Word → Word) (r : Word → Response),
    (∀ x, (r x).st = 0 ∨ v x = x ∧ r x = ⟨Err.rangeViolation.code, 0⟩) ∧
    ∀ s, run s = .next ((s.setValue (v s.value)).respond (r s.value).st (r s.value).dout)

@[simp] theorem State.setValue_self (s : State cfg) : s.setValue s.value = s := by
  ext1 <;> simp

theorem writeValue_actsOnValue (v : Word → Word) : ActsOnValue fun s : State cfg => writeValue (v s.value) s :=
  ⟨v, fun _ => ⟨0, 0⟩, fun _ => .inl rfl, fun s => writeValue_eq _ s⟩

theorem respond_actsOnValue (d : Word → Word) : ActsOnValue fun s : State cfg => respond okCode (d s.value) s :=
  ⟨id, fun x => ⟨0, d x⟩, fun _ => .inl rfl, fun s => by simp [respond_eq, okCode]⟩

theorem rangeViolation_actsOnValue :
    ActsOnValue fun s : State cfg => .next (s.respond Err.rangeViolation.code 0) :=
  ⟨id, fun _ => ⟨Err.rangeViolation.code, 0⟩, fun _ => .inr ⟨rfl, rfl⟩, fun s => by simp⟩

/-- Checking a command's operands first reads no state (R100, R110). -/
theorem ActsOnValue.checked {run : State cfg → Result cfg} (h : ActsOnValue run) (ok : Bool) :
    ActsOnValue fun s => if ok then run s else raise .rangeViolation s := by
  cases ok
  · exact rangeViolation_actsOnValue
  · exact h

theorem withIndex_actsOnValue (i : Nat) {run : State cfg → Result cfg} (h : ActsOnValue run) :
    ActsOnValue fun s => withIndex i s run :=
  h.checked (indexOk i)

theorem withRange_actsOnValue (a b : Nat) {run : State cfg → Result cfg} (h : ActsOnValue run) :
    ActsOnValue fun s => withRange a b s run :=
  h.checked (rangeOk a b)

/-- Every register command reads and writes VALUE alone (R32). -/
theorem exec_actsOnValue {i : Instr} (h : i.isRegister = true) : ActsOnValue (exec i) :=
  match i with
  | .set v => writeValue_actsOnValue fun _ => v
  | .get => respond_actsOnValue id
  | .getb i => withIndex_actsOnValue i (respond_actsOnValue fun x => (x >>> i) &&& 1)
  | .setb i on => withIndex_actsOnValue i
      (writeValue_actsOnValue fun x => if on then x ||| bitMask i else x &&& (mask64 ^^^ bitMask i))
  | .rmask a b => withRange_actsOnValue a b (respond_actsOnValue fun _ => generatedMask a b)
  | .extr a b => withRange_actsOnValue a b (writeValue_actsOnValue fun x => (x &&& rangeMask a b) >>> rangeLo a b)
  | .zero a b => withRange_actsOnValue a b (writeValue_actsOnValue fun x => x &&& (mask64 ^^^ rangeMask a b))
  | .one a b => withRange_actsOnValue a b (writeValue_actsOnValue fun x => x ||| rangeMask a b)
  | .togl a b => withRange_actsOnValue a b (writeValue_actsOnValue fun x => x ^^^ rangeMask a b)
  | .shl n => writeValue_actsOnValue fun x => shiftedLeft x n
  | .shr n => writeValue_actsOnValue fun x => shiftedRight x n

/-- The forms of the evaluator commands: the operators are `unop` or `binop` of a function whose errors are latched (R148,
R201), and every other command has a form of its own. -/
inductive EvaluatorForm : Instr → Prop
  | ebegin : EvaluatorForm .ebegin
  | push (v : Word) : EvaluatorForm (.push v)
  | unary {i : Instr} (f : Int → Except Err Int) (gated : i.isGated = true) (notCommit : i ≠ .commit)
      (latched : ∀ a e, f a = .error e → e.latched = true) (meaning : exec i = unop f) : EvaluatorForm i
  | binary {i : Instr} (f : Int → Int → Except Err Int) (gated : i.isGated = true) (notCommit : i ≠ .commit)
      (latched : ∀ a b e, f a b = .error e → e.latched = true) (meaning : exec i = binop f) : EvaluatorForm i
  | commit : EvaluatorForm .commit
  | rdraw (k : Nat) : EvaluatorForm (.rdraw k)
  | rdstat : EvaluatorForm .rdstat

/-- The operators with an error of their own raise it on one condition: EDIV, EMOD, ESHL and ESHR (R163, R164, R167,
R168). -/
theorem latched_of_ite {c : Prop} [Decidable c] {raised e : Err} {r : Int} (latched : raised.latched = true)
    (h : (if c then .error raised else .ok r : Except Err Int) = .error e) : e.latched = true := by
  split at h <;> cases h
  exact latched

/-- A unary operator without an error of its own. -/
theorem EvaluatorForm.exactUnary {i : Instr} (f : Int → Int) (gated : i.isGated = true) (notCommit : i ≠ .commit)
    (meaning : exec i = unop fun a => .ok (f a)) : EvaluatorForm i :=
  .unary _ gated notCommit (by simp) meaning

/-- A binary operator without an error of its own. -/
theorem EvaluatorForm.exactBinary {i : Instr} (f : Int → Int → Int) (gated : i.isGated = true) (notCommit : i ≠ .commit)
    (meaning : exec i = binop fun a b => .ok (f a b)) : EvaluatorForm i :=
  .binary _ gated notCommit (by simp) meaning

/-- Every evaluator command has one of the forms. -/
theorem evaluatorForm {i : Instr} (h : i.isRegister = false) : EvaluatorForm i :=
  match i with
  | .ebegin => .ebegin
  | .push v => .push v
  | .eneg => .exactUnary _ rfl nofun (funext exec_eneg)
  | .enot => .exactUnary _ rfl nofun (funext exec_enot)
  | .emul => .exactBinary _ rfl nofun (funext exec_emul)
  | .ediv => .binary aluDiv rfl nofun (fun _ _ _ => latched_of_ite rfl) (funext exec_ediv)
  | .emod => .binary aluMod rfl nofun (fun _ _ _ => latched_of_ite rfl) (funext exec_emod)
  | .eadd => .exactBinary _ rfl nofun (funext exec_eadd)
  | .esub => .exactBinary _ rfl nofun (funext exec_esub)
  | .eshl => .binary _ rfl nofun (fun _ _ _ => latched_of_ite rfl) (funext exec_eshl)
  | .eshr => .binary _ rfl nofun (fun _ _ _ => latched_of_ite rfl) (funext exec_eshr)
  | .eand => .exactBinary _ rfl nofun (funext exec_eand)
  | .exor => .exactBinary _ rfl nofun (funext exec_exor)
  | .eor => .exactBinary _ rfl nofun (funext exec_eor)
  | .commit => .commit
  | .rdraw k => .rdraw k
  | .rdstat => .rdstat

/-! ## Everything a command can do -/

/-- `t` differs from `s` in its stack at most. -/
structure SameButStack (s t : State cfg) : Prop where
  value : t.value = s.value
  eerr : t.eerr = s.eerr
  raw : t.raw = s.raw
  inputs : t.inputs = s.inputs
  responses : t.responses = s.responses

/-- Everything a command can do, family by family (R32, R140, R143, R200). -/
inductive Effect (i : Instr) (s : State) : State → Prop
  /-- a register command: it succeeds, or it fails with RangeViolation and VALUE stays -/
  | register (v : Word) (r : Response) (family : i.isRegister = true)
      (ends : r.st = 0 ∨ v = s.value ∧ r = ⟨Err.rangeViolation.code, 0⟩) : Effect i s ((s.setValue v).respond r.st r.dout)
  /-- RDRAW or RDSTAT -/
  | read (d : Word) (family : i.isRegister = false) (ungated : i.isGated = false) : Effect i s (s.respond 0 d)
  | ebegin (command : i = .ebegin) : Effect i s (s.emptyStack.clearError.respond 0 0)
  /-- a gated command under a sticky error -/
  | blocked (gated : i.isGated = true) (sticky : s.eerr ≠ 0) : Effect i s (s.respond s.eerr 0)
  /-- a gated command that fails -/
  | failed (e : Err) (gated : i.isGated = true) (clear : s.eerr = 0) (latched : e.latched = true) :
      Effect i s ((s.latch e).respond e.code 0)
  /-- PUSH or an operator that succeeds -/
  | stored (t : State) (gated : i.isGated = true) (notCommit : i ≠ .commit) (clear : s.eerr = 0)
      (frame : SameButStack s t) : Effect i s (t.respond 0 0)
  | committed (v : Entry) (command : i = .commit) (clear : s.eerr = 0) (one : s.live = [v]) :
      Effect i s ((((s.setValue v).setRaw v).emptyStack).respond 0 (v.setWidth 64))

/-- An operator past its checks fails or stores its result. -/
theorem finishOperator_effect {i : Instr} {s : State} (x : Except Err Int) (store : Entry → State)
    (gated : i.isGated = true) (notCommit : i ≠ .commit) (clear : s.eerr = 0)
    (latched : ∀ e, x = .error e → e.latched = true) (frame : ∀ v, SameButStack s (store v)) :
    ∃ t, finishOperator x s store = .next t ∧ Effect i s t := by
  rcases finishOperator_cases x s store with ⟨e, hx, h⟩ | ⟨r, -, -, h⟩ | ⟨r, -, -, h⟩
  · exact ⟨_, h, .failed e gated clear (latched e hx)⟩
  · exact ⟨_, h, .stored _ gated notCommit clear (frame _)⟩
  · exact ⟨_, h, .failed .evalOverflow gated clear rfl⟩

/-- An evaluator command, by its form. -/
theorem exec_effect_of_form {i : Instr} (form : EvaluatorForm i) (s : State) : ∃ t, exec i s = .next t ∧ Effect i s t := by
  cases form with
  | ebegin => exact ⟨_, exec_ebegin s, .ebegin rfl⟩
  | push v =>
    rcases exec_push_cases s v with ⟨sticky, h⟩ | ⟨clear, -, h⟩ | ⟨clear, room, h⟩
    · exact ⟨_, h, .blocked rfl sticky⟩
    · exact ⟨_, h, .failed .stackOverflow rfl clear rfl⟩
    · exact ⟨_, h, .stored _ rfl nofun clear ⟨rfl, rfl, rfl, rfl, rfl⟩⟩
  | unary f gated notCommit latched meaning =>
    rw [meaning]
    rcases unop_cases f s with ⟨sticky, h⟩ | ⟨clear, -, h⟩ | ⟨clear, live, h⟩
    · exact ⟨_, h, .blocked gated sticky⟩
    · exact ⟨_, h, .failed .parseError gated clear rfl⟩
    · rw [h]
      exact finishOperator_effect _ _ gated notCommit clear (latched _) fun _ => ⟨rfl, rfl, rfl, rfl, rfl⟩
  | binary f gated notCommit latched meaning =>
    rw [meaning]
    rcases binop_cases f s with ⟨sticky, h⟩ | ⟨clear, -, h⟩ | ⟨clear, live, h⟩
    · exact ⟨_, h, .blocked gated sticky⟩
    · exact ⟨_, h, .failed .parseError gated clear rfl⟩
    · rw [h]
      exact finishOperator_effect _ _ gated notCommit clear (latched _ _) fun _ => ⟨rfl, rfl, rfl, rfl, rfl⟩
  | commit =>
    rcases exec_commit_cases s with ⟨sticky, h⟩ | ⟨clear, -, h⟩ | ⟨clear, v, one, h⟩
    · exact ⟨_, h, .blocked rfl sticky⟩
    · exact ⟨_, h, .failed .parseError rfl clear rfl⟩
    · exact ⟨_, h, .committed v rfl clear one⟩
  | rdraw k => exact ⟨_, exec_rdraw s k, .read _ rfl rfl⟩
  | rdstat => exact ⟨_, exec_rdstat s, .read _ rfl rfl⟩

/-- Every command answers a next state, which is one of its effects. -/
theorem exec_effect (i : Instr) (s : State) : ∃ t, exec i s = .next t ∧ Effect i s t := by
  cases family : i.isRegister
  · exact exec_effect_of_form (evaluatorForm family) s
  · obtain ⟨v, r, ends, h⟩ := exec_actsOnValue family
    exact ⟨_, h s, .register _ _ family (ends s.value)⟩

section
variable {i : Instr} {s t : State}

theorem Effect.inputs (h : Effect i s t) : t.inputs = s.inputs := by
  cases h with
  | stored u _ _ _ frame => exact frame.inputs
  | _ => rfl

theorem Effect.responses (h : Effect i s t) : ∃ r, t.responses = s.responses ++ [r] := by
  cases h with
  | stored u _ _ _ frame => exact ⟨⟨0, 0⟩, by rw [State.respond_responses, frame.responses]⟩
  | _ => exact ⟨_, rfl⟩

/-- A register command changes VALUE at most (R32). -/
theorem Effect.of_register (h : Effect i s t) (family : i.isRegister = true) :
    t.estack = s.estack ∧ t.edepth = s.edepth ∧ t.eerr = s.eerr ∧ t.raw = s.raw := by
  cases h with
  | ebegin command => subst command; cases family
  | failed _ gated => cases family.symm.trans (isRegister_of_isGated gated)
  | stored _ gated => cases family.symm.trans (isRegister_of_isGated gated)
  | committed _ command => subst command; cases family
  | _ => exact ⟨rfl, rfl, rfl, rfl⟩

/-- An evaluator command other than COMMIT changes neither VALUE nor RAW (R27, R32). -/
theorem Effect.of_evaluator (h : Effect i s t) (family : i.isRegister = false) (notCommit : i ≠ .commit) :
    t.value = s.value ∧ t.raw = s.raw := by
  cases h with
  | register _ _ family' => cases family.symm.trans family'
  | stored u _ _ _ frame => exact ⟨frame.value, frame.raw⟩
  | committed _ command => exact absurd command notCommit
  | _ => exact ⟨rfl, rfl⟩

end

/-- Settles O12: a legal command by its effect, an illegal one by its own step. -/
theorem oneResponsePerCommand : Obligations.OneResponsePerCommand := by
  unfold Obligations.OneResponsePerCommand
  intro s c rest h
  cases hd : decode c with
  | ok i =>
    obtain ⟨t, hrun, effect⟩ := exec_effect i { s with inputs := rest }
    obtain ⟨r, hr⟩ := effect.responses
    exact ⟨t, r, (step_command h hd).trans hrun, effect.inputs, hr⟩
  | error why => exact ⟨_, _, step_illegal h hd, rfl, rfl⟩

/-- Settles O17. -/
theorem registerAndEvaluatorStateDisjoint : Obligations.RegisterAndEvaluatorStateDisjoint := by
  unfold Obligations.RegisterAndEvaluatorStateDisjoint
  intro i s
  obtain ⟨t, hrun, effect⟩ := exec_effect i s
  exact ⟨t, hrun, effect.inputs, effect.of_register, effect.of_evaluator⟩

/-! ## Errors -/

/-- The codes of the latched errors (R201, R26). -/
theorem code_mem_of_latched {e : Err} (h : e.latched = true) : e.code ∈ ([1, 2, 4, 5, 6] : List Code) := by
  revert h; cases e <;> decide

/-- A failing command leaves all but EERR, and writes EERR only over 0, with the latched code it returns. -/
theorem Effect.failure {i : Instr} {s t : State} (effect : Effect i s t) :
    ∃ r, t.responses = s.responses ++ [r] ∧ (r.st ≠ 0 → r.dout = 0 ∧ t.value = s.value ∧ t.raw = s.raw ∧
      t.edepth = s.edepth ∧ t.live = s.live ∧ (t.eerr = s.eerr ∨
        (i.isRegister = false ∧ s.eerr = 0 ∧ t.eerr = r.st ∧ r.st ∈ ([1, 2, 4, 5, 6] : List Code)))) := by
  cases effect with
  | register v r _ ends =>
    refine ⟨r, rfl, fun fails => ?_⟩
    obtain ⟨rfl, rfl⟩ := ends.resolve_left fails
    simp
  | read d => exact ⟨⟨0, d⟩, rfl, fun fails => absurd rfl fails⟩
  | ebegin => exact ⟨⟨0, 0⟩, rfl, fun fails => absurd rfl fails⟩
  | blocked => exact ⟨⟨s.eerr, 0⟩, rfl, fun _ => ⟨rfl, rfl, rfl, rfl, rfl, .inl rfl⟩⟩
  | failed e gated clear latched =>
    exact ⟨⟨e.code, 0⟩, rfl, fun _ => ⟨rfl, rfl, rfl, rfl, rfl,
      .inr ⟨isRegister_of_isGated gated, clear, rfl, code_mem_of_latched latched⟩⟩⟩
  | stored u _ _ _ frame =>
    exact ⟨⟨0, 0⟩, by rw [State.respond_responses, frame.responses], fun fails => absurd rfl fails⟩
  | committed v => exact ⟨⟨0, v.setWidth 64⟩, rfl, fun fails => absurd rfl fails⟩

/-- Settles O15. -/
theorem failureChangesOnlyEerr : Obligations.FailureChangesOnlyEerr := by
  unfold Obligations.FailureChangesOnlyEerr
  intro i s
  obtain ⟨t, hrun, effect⟩ := exec_effect i s
  obtain ⟨r, hr, hfail⟩ := effect.failure
  refine ⟨t, r, hrun, hr, fun family => ?_, hfail⟩
  obtain ⟨-, -, heerr, -⟩ := effect.of_register family
  exact heerr

/-! ## The invariant -/

theorem inv_iff {s : State cfg} :
    s.inv = true ↔ eerrLegal s.eerr = true ∧ ∀ r ∈ s.responses, responseLegal r = true := by
  simp [State.inv]

/-- The invariant of a state that ends a command: that of the state before the response, and a legal response. -/
theorem inv_respond_iff {s : State cfg} {st : Code} {d : Word} :
    (s.respond st d).inv = true ↔ s.inv = true ∧ responseLegal ⟨st, d⟩ = true := by
  simp [State.inv, and_assoc]

/-- The invariant speaks of EERR and of the responses alone. -/
theorem inv_congr {s t : State cfg} (heerr : t.eerr = s.eerr) (hresponses : t.responses = s.responses) :
    t.inv = s.inv := by
  rw [State.inv, State.inv, heerr, hresponses]

theorem inv_of_clear {s t : State cfg} (h : s.inv = true) (heerr : t.eerr = 0)
    (hresponses : t.responses = s.responses) : t.inv = true := by
  rw [inv_iff] at h ⊢
  rw [heerr, hresponses]
  exact ⟨rfl, h.2⟩

theorem responseLegal_ok (d : Word) : responseLegal ⟨0, d⟩ = true := by
  simp [responseLegal]

theorem responseLegal_err (e : Err) : responseLegal ⟨e.code, 0⟩ = true := by
  cases e <;> rfl

theorem responseLegal_of_eerrLegal {c : Code} (h : eerrLegal c = true) : responseLegal ⟨c, 0⟩ = true := by
  revert c; decide

theorem eerrLegal_of_latched {e : Err} (h : e.latched = true) : eerrLegal e.code = true := by
  revert h; cases e <;> decide

theorem Effect.keeps_inv {i : Instr} {s t : State} (effect : Effect i s t) (h : s.inv = true) : t.inv = true := by
  cases effect with
  | register v r _ ends =>
    refine inv_respond_iff.2 ⟨h, ?_⟩
    rcases ends with ok | ⟨-, rangeViolation⟩
    · rw [ok]; exact responseLegal_ok _
    · rw [rangeViolation]; exact responseLegal_err _
  | read d => exact inv_respond_iff.2 ⟨h, responseLegal_ok d⟩
  | ebegin => exact inv_respond_iff.2 ⟨inv_of_clear h rfl rfl, responseLegal_ok 0⟩
  | blocked => exact inv_respond_iff.2 ⟨h, responseLegal_of_eerrLegal (inv_iff.1 h).1⟩
  | failed e _ _ latched =>
    exact inv_respond_iff.2 ⟨inv_iff.2 ⟨eerrLegal_of_latched latched, (inv_iff.1 h).2⟩, responseLegal_err e⟩
  | stored u _ _ _ frame =>
    exact inv_respond_iff.2 ⟨(inv_congr frame.eerr frame.responses).trans h, responseLegal_ok 0⟩
  | committed v => exact inv_respond_iff.2 ⟨h, responseLegal_ok _⟩

/-- Settles O13. -/
theorem resetMeetsInvariant : Obligations.ResetMeetsInvariant :=
  inv_iff.2 ⟨rfl, nofun⟩

/-- Settles O14, by the cases of a step; a command keeps the invariant by its effect. -/
theorem stepKeepsInvariant : Obligations.StepKeepsInvariant := by
  unfold Obligations.StepKeepsInvariant
  intro s t h hstep
  rcases step_cases s with ⟨-, e⟩ | ⟨cut, rest, -, e⟩ | ⟨c, i, rest, -, -, e⟩ | ⟨c, why, rest, -, -, e⟩
  · cases hstep.symm.trans e
    exact h
  · cases hstep.symm.trans e
    exact inv_of_clear h rfl rfl
  · obtain ⟨u, hrun, effect⟩ := exec_effect i { s with inputs := rest }
    cases hstep.symm.trans (e.trans hrun)
    exact effect.keeps_inv h
  · cases hstep.symm.trans e
    exact inv_respond_iff.2 ⟨h, responseLegal_err _⟩

/-! ## Comparing two runs -/

/-- Two states an evaluator command treats alike: the same live entries, EERR and RAW (R24, R32). -/
structure SameEvaluation (s s' : State cfg) : Prop where
  live : s.live = s'.live
  eerr : s.eerr = s'.eerr
  raw : s.raw = s'.raw

/-- EDEPTH counts the live entries. -/
theorem SameEvaluation.edepth {s s' : State cfg} (same : SameEvaluation s s') : s.edepth = s'.edepth := by
  rw [Fin.ext_iff, ← s.live_length, ← s'.live_length, same.live]

/-- RDSTAT's word shows EDEPTH and EERR alone. -/
theorem SameEvaluation.statusWord {s s' : State cfg} (same : SameEvaluation s s') :
    Machine.statusWord s = Machine.statusWord s' := by
  rw [Machine.statusWord, Machine.statusWord, same.edepth, same.eerr]

/-- Two runs, one from `s` and one from `s'`, answer next states with the same evaluation and the same new response. Where
VALUE was the same before, it is the same after. -/
def AnswerAlike (s s' : State cfg) (x x' : Result cfg) : Prop :=
  ∃ t t' r, x = .next t ∧ x' = .next t' ∧ SameEvaluation t t' ∧ t.responses = s.responses ++ [r] ∧
    t'.responses = s'.responses ++ [r] ∧ (s.value = s'.value → t.value = t'.value)

section
variable {s s' : State cfg}

/-- Both runs end a command with the same response. -/
theorem answerAlike_respond {t t' : State cfg} {st : Code} {d : Word} (same : SameEvaluation t t')
    (h : t.responses = s.responses) (h' : t'.responses = s'.responses) (hvalue : s.value = s'.value → t.value = t'.value) :
    AnswerAlike s s' (.next (t.respond st d)) (.next (t'.respond st d)) :=
  ⟨_, _, ⟨st, d⟩, rfl, rfl, ⟨same.live, same.eerr, same.raw⟩, by rw [State.respond_responses, h],
    by rw [State.respond_responses, h'], hvalue⟩

theorem answerAlike_of_unchanged (same : SameEvaluation s s') (st : Code) (d : Word) :
    AnswerAlike s s' (.next (s.respond st d)) (.next (s'.respond st d)) :=
  answerAlike_respond same rfl rfl id

theorem answerAlike_efail (same : SameEvaluation s s') (e : Err) : AnswerAlike s s' (efail e s) (efail e s') :=
  answerAlike_respond (t := s.latch e) (t' := s'.latch e) ⟨same.live, rfl, same.raw⟩ rfl rfl id

/-- A gated command is blocked in both runs by the same sticky error, so only the runs without one are left to compare. -/
theorem answerAlike_gated {run : State cfg → Result cfg} (same : SameEvaluation s s')
    (h : s.eerr = 0 → s'.eerr = 0 → AnswerAlike s s' (gated s run) (gated s' run)) :
    AnswerAlike s s' (gated s run) (gated s' run) := by
  by_cases clear : s.eerr = 0
  · exact h clear (same.eerr ▸ clear)
  · rw [gated_blocked clear, gated_blocked (same.eerr ▸ clear), same.eerr]
    exact answerAlike_of_unchanged same _ _

/-- `store` replaces the live entries above `pre` by the one it is given. -/
def LeavesAbove (pre : List (Entry cfg)) (s : State cfg) (store : Entry cfg → State cfg) : Prop :=
  ∀ x, (store x).live = pre ++ [x] ∧ (store x).value = s.value ∧ (store x).raw = s.raw ∧ (store x).eerr = s.eerr ∧
    (store x).inputs = s.inputs ∧ (store x).responses = s.responses

theorem answerAlike_finishOperator {pre : List (Entry cfg)} {store store' : Entry cfg → State cfg}
    (same : SameEvaluation s s') (h : LeavesAbove pre s store) (h' : LeavesAbove pre s' store') (x : Except Err Int) :
    AnswerAlike s s' (finishOperator x s store) (finishOperator x s' store') := by
  unfold finishOperator
  split
  · exact answerAlike_efail same _
  · next r =>
    split
    · obtain ⟨hlive, hvalue, hraw, heerr, -, hresponses⟩ := h (BitVec.ofInt cfg.evalWidth r)
      obtain ⟨hlive', hvalue', hraw', heerr', -, hresponses'⟩ := h' (BitVec.ofInt cfg.evalWidth r)
      refine answerAlike_respond ⟨?_, ?_, ?_⟩ hresponses hresponses' fun hv => ?_
      · rw [hlive, hlive']
      · rw [heerr, heerr', same.eerr]
      · rw [hraw, hraw', same.raw]
      · rw [hvalue, hvalue', hv]
    · exact answerAlike_efail same _

theorem unop_missing {f : Int → Except Err Int} (clear : s.eerr = 0) (missing : ¬ 0 < s.edepth.val) :
    unop f s = efail .parseError s := by
  rw [unop, gated_run clear, dif_neg missing]

theorem binop_missing {f : Int → Int → Except Err Int} (clear : s.eerr = 0) (missing : ¬ 1 < s.edepth.val) :
    binop f s = efail .parseError s := by
  rw [binop, gated_run clear, dif_neg missing]

theorem execCommit_missing (clear : s.eerr = 0) (missing : s.edepth.val ≠ 1) :
    execCommit s = efail .parseError s := by
  rw [execCommit, gated_run clear, dif_neg missing]

theorem execCommit_one {v : Entry cfg} (clear : s.eerr = 0) (one : s.live = [v]) :
    execCommit s = .next ((((s.setValue v).setRaw v).emptyStack).respond 0 (v.setWidth 64)) := by
  rcases execCommit_cases s with ⟨sticky, -⟩ | ⟨-, missing, -⟩ | ⟨-, w, one', h⟩
  · exact absurd clear sticky
  · exact absurd (by rw [← s.live_length, one]; rfl) missing
  · cases one.symm.trans one'
    exact h

theorem answerAlike_unop (same : SameEvaluation s s') (f : Int → Except Err Int) :
    AnswerAlike s s' (unop f s) (unop f s') := by
  refine answerAlike_gated same fun clear clear' => ?_
  change AnswerAlike s s' (unop f s) (unop f s')
  by_cases live : 0 < s.edepth.val
  · obtain ⟨pre, a, hl⟩ := State.exists_live_one live
    obtain ⟨store, hrun, hstore⟩ := unop_live (f := f) clear hl
    obtain ⟨store', hrun', hstore'⟩ := unop_live (f := f) clear' (same.live.symm.trans hl)
    rw [hrun, hrun']
    exact answerAlike_finishOperator same hstore hstore' _
  · rw [unop_missing clear live, unop_missing clear' (same.edepth ▸ live)]
    exact answerAlike_efail same _

theorem answerAlike_binop (same : SameEvaluation s s') (f : Int → Int → Except Err Int) :
    AnswerAlike s s' (binop f s) (binop f s') := by
  refine answerAlike_gated same fun clear clear' => ?_
  change AnswerAlike s s' (binop f s) (binop f s')
  by_cases live : 1 < s.edepth.val
  · obtain ⟨pre, a, b, hl⟩ := State.exists_live_two live
    obtain ⟨store, hrun, hstore⟩ := binop_live (f := f) clear hl
    obtain ⟨store', hrun', hstore'⟩ := binop_live (f := f) clear' (same.live.symm.trans hl)
    rw [hrun, hrun']
    exact answerAlike_finishOperator same hstore hstore' _
  · rw [binop_missing clear live, binop_missing clear' (same.edepth ▸ live)]
    exact answerAlike_efail same _

theorem answerAlike_push (same : SameEvaluation s s') (v : Word) :
    AnswerAlike s s' (execPush v s) (execPush v s') := by
  refine answerAlike_gated same fun clear clear' => ?_
  change AnswerAlike s s' (execPush v s) (execPush v s')
  by_cases room : s.edepth.val < cfg.stackDepth
  · rw [execPush_room v clear room, execPush_room v clear' (same.edepth ▸ room)]
    refine answerAlike_respond ⟨?_, same.eerr, same.raw⟩ rfl rfl id
    rw [State.push_live, State.push_live, same.live]
  · have full : s.edepth.val = cfg.stackDepth := Nat.le_antisymm s.edepth_le (Nat.le_of_not_lt room)
    rw [execPush_full v clear full, execPush_full v clear' (same.edepth ▸ full)]
    exact answerAlike_efail same .stackOverflow

theorem answerAlike_commit (same : SameEvaluation s s') : AnswerAlike s s' (execCommit s) (execCommit s') := by
  refine answerAlike_gated same fun clear clear' => ?_
  change AnswerAlike s s' (execCommit s) (execCommit s')
  by_cases one : s.edepth.val = 1
  · obtain ⟨v, hl⟩ := List.length_eq_one_iff.1 (s.live_length.trans one)
    rw [execCommit_one clear hl, execCommit_one clear' (same.live.symm.trans hl)]
    exact answerAlike_respond ⟨by simp, same.eerr, rfl⟩ rfl rfl fun _ => rfl
  · rw [execCommit_missing clear one, execCommit_missing clear' (same.edepth ▸ one)]
    exact answerAlike_efail same _

end

/-- An evaluator command does the same in both runs (R24, R32). -/
theorem answerAlike_of_form {e : Instr} (form : EvaluatorForm e) {s s' : State} (same : SameEvaluation s s') :
    AnswerAlike s s' (exec e s) (exec e s') := by
  cases form with
  | ebegin =>
    rw [exec_ebegin, exec_ebegin]
    exact answerAlike_respond ⟨by simp, rfl, same.raw⟩ rfl rfl id
  | push v => exact answerAlike_push same v
  | unary f _ _ _ meaning => rw [meaning]; exact answerAlike_unop same f
  | binary f _ _ _ meaning => rw [meaning]; exact answerAlike_binop same f
  | commit => exact answerAlike_commit same
  | rdraw k =>
    rw [exec_rdraw, exec_rdraw, same.raw]
    exact answerAlike_of_unchanged same 0 _
  | rdstat =>
    rw [exec_rdstat, exec_rdstat, same.statusWord]
    exact answerAlike_of_unchanged same 0 _

/-- Settles O18: the register command changes VALUE alone, which the evaluator command does not read. -/
theorem registerCommandKeepsEvaluation : Obligations.RegisterCommandKeepsEvaluation := by
  unfold Obligations.RegisterCommandKeepsEvaluation
  intro r e s hr he
  obtain ⟨v, a, -, hrun⟩ := exec_actsOnValue hr
  obtain ⟨u, w, b, hu, hw, same, hub, hwb, -⟩ :=
    answerAlike_of_form (evaluatorForm he)
      (s := (s.setValue (v s.value)).respond (a s.value).st (a s.value).dout) (s' := s) ⟨rfl, rfl, rfl⟩
  refine ⟨_, u, w, hrun s, hu, hw, same.live, same.edepth, same.eerr, same.raw, ?_⟩
  rw [hub, hwb, List.getLast?_concat, List.getLast?_concat]

/-- No command reads or writes the inputs still to come. -/
theorem exec_inputs {i : Instr} {s t : State} (h : exec i s = .next t) : t.inputs = s.inputs := by
  obtain ⟨u, hrun, effect⟩ := exec_effect i s
  cases h.symm.trans hrun
  exact effect.inputs

/-- A register command does the same because VALUE is the same, an evaluator command because the evaluation is. -/
theorem exec_sameObservable (i : Instr) {s s' : State} (same : SameObservable s s') :
    ∃ t t', exec i s = .next t ∧ exec i s' = .next t' ∧ SameObservable t t' := by
  obtain ⟨hvalue, hlive, heerr, hraw, hinputs, hresponses⟩ := same
  cases family : i.isRegister with
  | false =>
    obtain ⟨t, t', r, ht, ht', same, hr, hr', hv⟩ :=
      answerAlike_of_form (evaluatorForm family) ⟨hlive, heerr, hraw⟩
    refine ⟨t, t', ht, ht', hv hvalue, same.live, same.eerr, same.raw, ?_, ?_⟩
    · rw [exec_inputs ht, exec_inputs ht', hinputs]
    · rw [hr, hr', hresponses]
  | true =>
    obtain ⟨v, r, -, hrun⟩ := exec_actsOnValue family
    refine ⟨_, _, hrun s, hrun s', ?_, hlive, heerr, hraw, hinputs, ?_⟩
    · simp [hvalue]
    · simp [hvalue, hresponses]

theorem SameObservable.withInputs {s s' : State cfg} (same : SameObservable s s') (rest : List Input) :
    SameObservable { s with inputs := rest } { s' with inputs := rest } := by
  obtain ⟨hvalue, hlive, heerr, hraw, -, hresponses⟩ := same
  exact ⟨hvalue, hlive, heerr, hraw, rfl, hresponses⟩

theorem SameObservable.respond {s s' : State cfg} (same : SameObservable s s') (st : Code) (d : Word) :
    SameObservable (s.respond st d) (s'.respond st d) := by
  obtain ⟨hvalue, hlive, heerr, hraw, hinputs, hresponses⟩ := same
  exact ⟨hvalue, hlive, heerr, hraw, hinputs, by simp [hresponses]⟩

/-- Settles O19, by the host's next input, which is the same in both states. -/
theorem deadEntriesNeverObservable : Obligations.DeadEntriesNeverObservable := by
  unfold Obligations.DeadEntriesNeverObservable
  intro s s' same
  have ⟨_, _, _, _, hinputs, hresponses⟩ := same
  rcases h : s.inputs with _ | ⟨c | cut, rest⟩
  · exact ⟨s, s', step_waits h, step_waits (hinputs ▸ h), same⟩
  · cases hd : decode c with
    | ok i =>
      rw [step_command h hd, step_command (hinputs ▸ h) hd]
      exact exec_sameObservable i (same.withInputs rest)
    | error why =>
      exact ⟨_, _, step_illegal h hd, step_illegal (hinputs ▸ h) hd, (same.withInputs rest).respond _ _⟩
  · exact ⟨_, _, step_reset h, step_reset (hinputs ▸ h), rfl, rfl, rfl, rfl, rfl, hresponses⟩

/-! ## Runs under a sticky error -/

/-- What a command other than EBEGIN does under a sticky error, with its response `r`: a gated command reports the error,
and EERR, the stack and RAW stay (R140, R143). -/
structure KeepsError (i : Instr) (s t : State) (r : Response) : Prop where
  responses : t.responses = s.responses ++ [r]
  reported : i.isGated = true → r = ⟨s.eerr, 0⟩
  eerr : t.eerr = s.eerr
  live : t.live = s.live
  edepth : t.edepth = s.edepth
  raw : t.raw = s.raw
  value : i.isRegister = false → t.value = s.value

theorem Effect.keepsError {i : Instr} {s t : State} (effect : Effect i s t) (sticky : s.eerr ≠ 0)
    (notEbegin : i ≠ .ebegin) : ∃ r, KeepsError i s t r := by
  cases effect with
  | register v r family =>
    exact ⟨r, rfl, fun gated => (nomatch family.symm.trans (isRegister_of_isGated gated)), rfl, rfl, rfl, rfl,
      fun family' => nomatch family.symm.trans family'⟩
  | read d _ ungated =>
    exact ⟨⟨0, d⟩, rfl, fun gated => (nomatch ungated.symm.trans gated), rfl, rfl, rfl, rfl, fun _ => rfl⟩
  | ebegin command => exact absurd command notEbegin
  | blocked => exact ⟨_, rfl, fun _ => rfl, rfl, rfl, rfl, rfl, fun _ => rfl⟩
  | failed _ _ clear => exact absurd clear sticky
  | stored _ _ _ clear => exact absurd clear sticky
  | committed _ _ clear => exact absurd clear sticky

/-- A run of presented instructions under a sticky error, by induction on the instructions. -/
theorem run_keeps_error (is : List Instr) (s : State) (hinputs : s.inputs = is.map fun i => .command (encode i))
    (sticky : s.eerr ≠ 0) (his : ∀ i ∈ is, i ≠ .ebegin ∧ i.wf = true) :
    ∃ t rs, run is.length s = .next t ∧ t.inputs = [] ∧ t.responses = s.responses ++ rs ∧ rs.length = is.length ∧
      (∀ (k : Nat) (i : Instr), is[k]? = some i → i.isGated = true → rs[k]? = some ⟨s.eerr, 0⟩) ∧
      t.eerr = s.eerr ∧ t.live = s.live ∧ t.edepth = s.edepth ∧ t.raw = s.raw ∧
      ((∀ i ∈ is, i.isRegister = false) → t.value = s.value) := by
  induction is generalizing s with
  | nil => exact ⟨s, [], rfl, hinputs, by simp, rfl, by simp, rfl, rfl, rfl, rfl, fun _ => rfl⟩
  | cons i is ih =>
    obtain ⟨⟨notEbegin, wf⟩, his'⟩ := List.forall_mem_cons.1 his
    obtain ⟨u, hrun, effect⟩ := exec_effect i { s with inputs := is.map fun i => .command (encode i) }
    obtain ⟨r, kept⟩ := effect.keepsError sticky notEbegin
    obtain ⟨t, rs, hrest, ht, hrs, hlen, hgated, heerr, hlive, hedepth, hraw, hvalue⟩ :=
      ih u effect.inputs (kept.eerr ▸ sticky) his'
    refine ⟨t, r :: rs, ?_, ht, ?_, by simp [hlen], fun k j hj gated => ?_, heerr.trans kept.eerr,
      hlive.trans kept.live, hedepth.trans kept.edepth, hraw.trans kept.raw, fun family => ?_⟩
    · exact (run_succ _ ((step_command hinputs (decode_encode wf)).trans hrun)).trans hrest
    · rw [hrs, kept.responses, List.append_assoc, List.singleton_append]
    · cases k with
      | zero =>
        cases hj
        exact congrArg some (kept.reported gated)
      | succ k =>
        rw [List.getElem?_cons_succ, hgated k j hj gated, kept.eerr]
    · obtain ⟨hi, his⟩ := List.forall_mem_cons.1 family
      exact (hvalue his).trans (kept.value hi)

/-- Settles O38: presenting the instructions puts their commands on the empty port, and changes nothing else. -/
theorem firstErrorReportedToTheEnd : Obligations.FirstErrorReportedToTheEnd := by
  unfold Obligations.FirstErrorReportedToTheEnd
  intro is s hinputs sticky his
  exact run_keeps_error is (s.present (is.map encode)) (by simp [hinputs]) sticky his

end Sys2Proof.Machine
end

section
/-! # The port (20_memory.md): what the unit does when the host has presented nothing -/

namespace Sys2Proof.Machine

/-- Settles O9: with an empty port a step finds no input to take, so it waits (R44, R230). -/
theorem waitsWithNoCommand : Obligations.WaitsWithNoCommand := by
  unfold Obligations.WaitsWithNoCommand
  intro s nothingPresented
  exact step_waits nothingPresented

end Sys2Proof.Machine
end

section
/-! # The encoding statements (30_encoding.md, section 1): the decoder against the opcode map and the encoder

First the fields of a command word under a row's mask, then everything the decoder can answer, then what each row of the
opcode map reads from the words it selects. -/

namespace Sys2Proof

/-! ## The fields of a command word -/

/-- The bits of the field `A = cw[23:16]` (R51). -/
def aBits (cw : CmdWord) : Field8 := cw.extractLsb' 16 8

/-- The bits of the field `B = cw[15:8]` (R51). -/
def bBits (cw : CmdWord) : Field8 := cw.extractLsb' 8 8

/-- The reserved field `RSV = cw[7:1]` (R51). -/
def rsvBits (cw : CmdWord) : BitVec 7 := cw.extractLsb' 1 7

/-- The decoder's numbers, put back into fields, are the word's own fields (R51, R52). -/
theorem fieldOf_aField (cw : CmdWord) : fieldOf (aField cw) = aBits cw := BitVec.ofNat_toNat 8 (aBits cw)

theorem fieldOf_bField (cw : CmdWord) : fieldOf (bField cw) = bBits cw := BitVec.ofNat_toNat 8 (bBits cw)

theorem fitsIndexField_aField (cw : CmdWord) : fitsIndexField (aField cw) = true := decide_eq_true (aBits cw).isLt

theorem fitsIndexField_bField (cw : CmdWord) : fitsIndexField (bField cw) = true := decide_eq_true (bBits cw).isLt

theorem fitsAmountField_amountField (op : Word) : fitsAmountField (amountField op) = true :=
  decide_eq_true (op.extractLsb' 0 32).isLt

theorem amountField_eq_mod (op : Word) : amountField op = op.toNat % 2 ^ 32 := by
  simp [amountField, BitVec.extractLsb'_toNat]

/-- A command word is its five fields (R51). -/
theorem partsWord_fields (cw : CmdWord) :
    partsWord (opcField cw) (aBits cw) (bBits cw) (rsvBits cw) (onField cw) = cw := by
  apply BitVec.eq_of_getLsbD_eq
  intro j hj
  simp only [partsWord, opcField, aBits, bBits, rsvBits, onField, BitVec.getLsbD_append, BitVec.getLsbD_extractLsb',
    BitVec.getLsbD_ofBool]
  grind

/-! ## What a row's selection says of the fields -/

section
variable {r : Row} {cw : CmdWord}

theorem Row.selects_iff : r.selects cw = true ↔ cw &&& r.mask = r.pattern := beq_iff_eq

/-- The masked fields of a selected word are those of the row's pattern (R54). -/
theorem Row.fields_of_selects (h : r.selects cw = true) :
    opcField cw &&& opcField r.mask = opcField r.pattern ∧ aBits cw &&& aBits r.mask = aBits r.pattern ∧
      bBits cw &&& bBits r.mask = bBits r.pattern ∧ rsvBits cw &&& rsvBits r.mask = rsvBits r.pattern ∧
      (onField cw && onField r.mask) = onField r.pattern := by
  rw [← Row.selects_iff.1 h]
  simp only [opcField, aBits, bBits, rsvBits, onField, BitVec.extractLsb'_and, BitVec.getLsbD_and, and_self]

/-- Every row tests the whole opcode and the whole reserved field, and asks for 0 in every field it tests but the opcode
(R53, R54). -/
theorem rows_test_opcode : ∀ r ∈ rows, opcField r.mask = 0xFF ∧ rsvBits r.mask = 0x7F ∧
    aBits r.pattern = 0 ∧ bBits r.pattern = 0 ∧ rsvBits r.pattern = 0 ∧ onField r.pattern = false := by decide

theorem opcField_of_selects (hr : r ∈ rows) (h : r.selects cw = true) : opcField cw = opcField r.pattern := by
  obtain ⟨hopc, -⟩ := Row.fields_of_selects h
  rw [(rows_test_opcode r hr).1] at hopc
  exact (BitVec.and_allOnes (x := opcField cw)).symm.trans hopc

/-- A selected word has the row's opcode, a reserved field of 0, and 0 in whatever other field the row tests (R53). -/
theorem word_of_selects (hr : r ∈ rows) (h : r.selects cw = true) :
    cw = wordOf (opcField r.pattern) (aBits cw) (bBits cw) (onField cw) ∧ aBits cw &&& aBits r.mask = 0 ∧
      bBits cw &&& bBits r.mask = 0 ∧ (onField cw && onField r.mask) = false := by
  obtain ⟨-, ha, hb, hrsv, hon⟩ := Row.fields_of_selects h
  obtain ⟨-, mrsv, pa, pb, prsv, pon⟩ := rows_test_opcode r hr
  rw [pa] at ha
  rw [pb] at hb
  rw [pon] at hon
  have rsv_zero : rsvBits cw = 0 := by
    rw [mrsv, prsv] at hrsv
    exact (BitVec.and_allOnes (x := rsvBits cw)).symm.trans hrsv
  refine ⟨?_, ha, hb, hon⟩
  conv_lhs => rw [← partsWord_fields cw, opcField_of_selects hr h, rsv_zero]
  rfl

end

/-! ## Everything the decoder can answer -/

theorem decode_of_not_selects {c : Command} (h : ∀ r ∈ rows, r.selects c.cw ≠ true) :
    decode c = .error (if rows.any (fun r => opcField r.pattern == opcField c.cw) then .unusedFieldNonzero
      else .unknownOpcode) := by
  rw [decode, List.find?_eq_none.2 h]
  exact (apply_ite _ _ _ _).symm

/-- The decoder reads a word with the row that selects it, and refuses a word that no row selects (R54, R55). -/
theorem decode_cases (c : Command) :
    (∃ r ∈ rows, r.selects c.cw = true ∧ decode c = .ok (r.make c.cw c.op)) ∨
    ((∀ r ∈ rows, r.selects c.cw ≠ true) ∧
      decode c = .error (if rows.any (fun r => opcField r.pattern == opcField c.cw) then .unusedFieldNonzero
        else .unknownOpcode)) := by
  by_cases h : ∃ r ∈ rows, r.selects c.cw = true
  · obtain ⟨r, hr, hsel⟩ := h
    exact .inl ⟨r, hr, hsel, decode_of_selects hr hsel⟩
  · have none_selects : ∀ r ∈ rows, r.selects c.cw ≠ true := fun r hr hsel => h ⟨r, hr, hsel⟩
    exact .inr ⟨none_selects, decode_of_not_selects none_selects⟩

/-- Settles O1. -/
theorem decodeEncodeRoundTrip : Obligations.DecodeEncodeRoundTrip := by
  unfold Obligations.DecodeEncodeRoundTrip
  exact fun _ wf => decode_encode wf

/-- Settles O4. -/
theorem opcodeRowsDisjoint : Obligations.OpcodeRowsDisjoint := rows_clash

/-- Settles O5. -/
theorem specWordsDecode : Obligations.SpecWordsDecode := by
  unfold Obligations.SpecWordsDecode
  decide

/-! ## What each row reads -/

/-- What the row reads from a word it selects is well formed, and encodes to that word. -/
def Row.ReadsBack (r : Row) : Prop :=
  ∀ (cw : CmdWord) (op : Word), r.selects cw = true →
    (r.make cw op).wf = true ∧ (encode (r.make cw op)).cw = cw

section
variable {r : Row}

/-- A row whose mask is full selects its pattern alone. -/
theorem readsBack_of_full_mask (hmask : r.mask = 0xFFFFFFFF)
    (h : ∀ op, (r.make r.pattern op).wf = true ∧ (encode (r.make r.pattern op)).cw = r.pattern) : r.ReadsBack := by
  intro cw op hsel
  have hcw : cw = r.pattern := by
    rw [← Row.selects_iff.1 hsel, hmask]
    exact BitVec.and_allOnes.symm
  rw [hcw]
  exact h op

/-- A row that tests no bit of `A`, and every other field, reads an index. -/
theorem readsBack_of_index {mk : Nat → Instr} (hr : r ∈ rows) (hmask : r.mask = 0xFF00FFFF)
    (hmake : ∀ cw op, r.make cw op = mk (aField cw)) (hwf : ∀ i, (mk i).wf = fitsIndexField i)
    (hcode : ∀ i, (encode (mk i)).cw = wordOf (opcField r.pattern) (fieldOf i) 0 false) : r.ReadsBack := by
  intro cw op hsel
  obtain ⟨hcw, -, hb, hon⟩ := word_of_selects hr hsel
  rw [hmask] at hb hon
  have b_zero : bBits cw = 0 := BitVec.and_allOnes.symm.trans hb
  have on_false : onField cw = false := (Bool.and_true _).symm.trans hon
  rw [hmake, hwf, hcode, fieldOf_aField]
  refine ⟨fitsIndexField_aField cw, ?_⟩
  rw [b_zero, on_false] at hcw
  exact hcw.symm

/-- The row that tests no bit of `A` and not `ON` reads an index and a Boolean. -/
theorem readsBack_of_index_on {mk : Nat → Bool → Instr} (hr : r ∈ rows) (hmask : r.mask = 0xFF00FFFE)
    (hmake : ∀ cw op, r.make cw op = mk (aField cw) (onField cw)) (hwf : ∀ i on, (mk i on).wf = fitsIndexField i)
    (hcode : ∀ i on, (encode (mk i on)).cw = wordOf (opcField r.pattern) (fieldOf i) 0 on) : r.ReadsBack := by
  intro cw op hsel
  obtain ⟨hcw, -, hb, -⟩ := word_of_selects hr hsel
  rw [hmask] at hb
  have b_zero : bBits cw = 0 := BitVec.and_allOnes.symm.trans hb
  rw [hmake, hwf, hcode, fieldOf_aField]
  refine ⟨fitsIndexField_aField cw, ?_⟩
  rw [b_zero] at hcw
  exact hcw.symm

/-- A row that tests no bit of `A` and `B` reads two bounds. -/
theorem readsBack_of_range {mk : Nat → Nat → Instr} (hr : r ∈ rows) (hmask : r.mask = 0xFF0000FF)
    (hmake : ∀ cw op, r.make cw op = mk (aField cw) (bField cw))
    (hwf : ∀ a b, (mk a b).wf = (fitsIndexField a && fitsIndexField b))
    (hcode : ∀ a b, (encode (mk a b)).cw = wordOf (opcField r.pattern) (fieldOf a) (fieldOf b) false) :
    r.ReadsBack := by
  intro cw op hsel
  obtain ⟨hcw, -, -, hon⟩ := word_of_selects hr hsel
  rw [hmask] at hon
  have on_false : onField cw = false := (Bool.and_true _).symm.trans hon
  rw [hmake, hwf, hcode, fieldOf_aField, fieldOf_bField]
  refine ⟨by rw [fitsIndexField_aField, fitsIndexField_bField, Bool.and_self], ?_⟩
  rw [on_false] at hcw
  exact hcw.symm

end

/-- Row by row, in the order of the opcode map (R54). -/
theorem rows_readBack : ∀ r ∈ rows, r.ReadsBack := by
  suffices table : ∀ r ∈ rows, r ∈ rows → r.ReadsBack from fun r hr => table r hr hr
  simp only [rows, registerRows, evaluatorRows, List.cons_append, List.nil_append, List.forall_mem_cons]
  exact ⟨fun _ => readsBack_of_full_mask rfl fun _ => ⟨rfl, rfl⟩,
    fun _ => readsBack_of_full_mask rfl fun _ => ⟨rfl, rfl⟩,
    fun hr => readsBack_of_index (mk := .getb) hr rfl (fun _ _ => rfl) (fun _ => rfl) fun _ => rfl,
    fun hr => readsBack_of_index_on (mk := .setb) hr rfl (fun _ _ => rfl) (fun _ _ => rfl) fun _ _ => rfl,
    fun hr => readsBack_of_range (mk := .rmask) hr rfl (fun _ _ => rfl) (fun _ _ => rfl) fun _ _ => rfl,
    fun hr => readsBack_of_range (mk := .extr) hr rfl (fun _ _ => rfl) (fun _ _ => rfl) fun _ _ => rfl,
    fun hr => readsBack_of_range (mk := .zero) hr rfl (fun _ _ => rfl) (fun _ _ => rfl) fun _ _ => rfl,
    fun hr => readsBack_of_range (mk := .one) hr rfl (fun _ _ => rfl) (fun _ _ => rfl) fun _ _ => rfl,
    fun hr => readsBack_of_range (mk := .togl) hr rfl (fun _ _ => rfl) (fun _ _ => rfl) fun _ _ => rfl,
    fun _ => readsBack_of_full_mask rfl fun op => ⟨fitsAmountField_amountField op, rfl⟩,
    fun _ => readsBack_of_full_mask rfl fun op => ⟨fitsAmountField_amountField op, rfl⟩,
    fun _ => readsBack_of_full_mask rfl fun _ => ⟨rfl, rfl⟩,
    fun _ => readsBack_of_full_mask rfl fun _ => ⟨rfl, rfl⟩,
    fun _ => readsBack_of_full_mask rfl fun _ => ⟨rfl, rfl⟩,
    fun _ => readsBack_of_full_mask rfl fun _ => ⟨rfl, rfl⟩,
    fun _ => readsBack_of_full_mask rfl fun _ => ⟨rfl, rfl⟩,
    fun _ => readsBack_of_full_mask rfl fun _ => ⟨rfl, rfl⟩,
    fun _ => readsBack_of_full_mask rfl fun _ => ⟨rfl, rfl⟩,
    fun _ => readsBack_of_full_mask rfl fun _ => ⟨rfl, rfl⟩,
    fun _ => readsBack_of_full_mask rfl fun _ => ⟨rfl, rfl⟩,
    fun _ => readsBack_of_full_mask rfl fun _ => ⟨rfl, rfl⟩,
    fun _ => readsBack_of_full_mask rfl fun _ => ⟨rfl, rfl⟩,
    fun _ => readsBack_of_full_mask rfl fun _ => ⟨rfl, rfl⟩,
    fun _ => readsBack_of_full_mask rfl fun _ => ⟨rfl, rfl⟩,
    fun _ => readsBack_of_full_mask rfl fun _ => ⟨rfl, rfl⟩,
    fun _ => readsBack_of_full_mask rfl fun _ => ⟨rfl, rfl⟩,
    fun hr => readsBack_of_index (mk := .rdraw) hr rfl (fun _ _ => rfl) (fun _ => rfl) fun _ => rfl,
    fun _ => readsBack_of_full_mask rfl fun _ => ⟨rfl, rfl⟩, nofun⟩

/-- Settles O2. -/
theorem decodedWordIsItsEncoding : Obligations.DecodedWordIsItsEncoding := by
  unfold Obligations.DecodedWordIsItsEncoding
  intro c i h
  rcases decode_cases c with ⟨r, hr, hsel, hdecode⟩ | ⟨-, hdecode⟩
  · cases h.symm.trans hdecode
    exact rows_readBack r hr c.cw c.op hsel
  · cases h.symm.trans hdecode

/-- Row by row: `op` is read for SET and PUSH, and its amount for SHL and SHR (R52). -/
theorem rows_make_congr : ∀ r ∈ rows, ∀ (cw : CmdWord) (op op' : Word),
    (opcField r.pattern ∈ ([0x01, 0x21] : List Field8) → op = op') →
    (opcField r.pattern ∈ ([0x0A, 0x0B] : List Field8) → amountField op = amountField op') →
    r.make cw op = r.make cw op' := by
  simp only [rows, registerRows, evaluatorRows, List.cons_append, List.nil_append, List.forall_mem_cons,
    List.not_mem_nil, false_implies, implies_true, true_and, and_true]
  exact ⟨fun _ _ _ same _ => congrArg Instr.set (same (by decide)),
    fun _ _ _ _ same => congrArg Instr.shl (same (by decide)),
    fun _ _ _ _ same => congrArg Instr.shr (same (by decide)),
    fun _ _ _ same _ => congrArg Instr.push (same (by decide))⟩

/-- Two commands with the same `cw`, whose operands agree where the opcode says that they are read, decode alike. -/
theorem decode_congr {cw : CmdWord} {op op' : Word}
    (word : opcField cw ∈ ([0x01, 0x21] : List Field8) → op = op')
    (amount : opcField cw ∈ ([0x0A, 0x0B] : List Field8) → amountField op = amountField op') :
    decode ⟨cw, op⟩ = decode ⟨cw, op'⟩ := by
  rcases decode_cases ⟨cw, op⟩ with ⟨r, hr, hsel, hdecode⟩ | ⟨hsel, hdecode⟩
  · rw [opcField_of_selects hr hsel] at word amount
    rw [hdecode, decode_of_selects (c := ⟨cw, op'⟩) hr hsel]
    exact congrArg Except.ok (rows_make_congr r hr cw op op' word amount)
  · rw [hdecode, decode_of_not_selects (c := ⟨cw, op'⟩) hsel]

/-- Settles O3. -/
theorem decodeReadsOperandOnlyWhereNamed : Obligations.DecodeReadsOperandOnlyWhereNamed := by
  unfold Obligations.DecodeReadsOperandOnlyWhereNamed
  constructor
  · intro cw op op' unread
    refine decode_congr (fun h => absurd ?_ unread) (fun h => absurd ?_ unread) <;>
      simp only [List.mem_cons] at h ⊢ <;> tauto
  · intro cw op op' shift same
    refine decode_congr (fun h => ?_) fun _ => ?_
    · have disjoint : ∀ opc ∈ ([0x0A, 0x0B] : List Field8), opc ∉ ([0x01, 0x21] : List Field8) := by decide
      exact absurd h (disjoint _ shift)
    · rw [amountField_eq_mod, amountField_eq_mod, same]

/-! ## Illegal commands (R55) -/

theorem exists_row_opcode_iff {cw : CmdWord} :
    rows.any (fun r => opcField r.pattern == opcField cw) = true ↔ ∃ r ∈ rows, opcField r.pattern = opcField cw := by
  simp only [List.any_eq_true, beq_iff_eq]

theorem decode_eq_error_iff {c : Command} :
    (∃ why, decode c = .error why) ↔ ∀ r ∈ rows, r.selects c.cw ≠ true := by
  rcases decode_cases c with ⟨r, hr, hsel, hdecode⟩ | ⟨hsel, hdecode⟩
  · simp only [hdecode, reduceCtorEq, exists_false, false_iff]
    exact fun h => h r hr hsel
  · exact ⟨fun _ => hsel, fun _ => ⟨_, hdecode⟩⟩

theorem error_reason_iff {c : Command} {why : IllegalReason} (h : decode c = .error why) :
    why = .unusedFieldNonzero ↔ ∃ r ∈ rows, opcField r.pattern = opcField c.cw := by
  rw [← exists_row_opcode_iff]
  rw [decode_of_not_selects (decode_eq_error_iff.1 ⟨why, h⟩)] at h
  cases h
  split <;> simp_all

/-- A word whose opcode no row has is refused by that name. -/
theorem decode_unknownOpcode {c : Command} (h : ∀ r ∈ rows, opcField r.pattern ≠ opcField c.cw) :
    decode c = .error .unknownOpcode := by
  rw [decode_of_not_selects fun r hr hsel => h r hr (opcField_of_selects hr hsel).symm, if_neg]
  rw [exists_row_opcode_iff]
  exact fun ⟨r, hr, heq⟩ => h r hr heq

/-- The opcodes of the map (R54). -/
theorem rows_opcode_range : ∀ r ∈ rows, opcField r.pattern ≠ 0x00 ∧
    ((opcField r.pattern).toNat < 0x0C ∨ 0x1F < (opcField r.pattern).toNat) ∧ (opcField r.pattern).toNat < 0x31 := by
  decide

/-- Settles O6. -/
theorem illegalCommandRaisesAndChangesNothing : Obligations.IllegalCommandRaisesAndChangesNothing := by
  unfold Obligations.IllegalCommandRaisesAndChangesNothing
  refine ⟨fun c => ?_, fun c why => error_reason_iff, fun c h => decode_unknownOpcode fun r hr heq => ?_,
    fun s c rest hinputs h => ?_⟩
  · simp only [decode_eq_error_iff, ne_eq, Row.selects_iff]
  · obtain ⟨notZero, gap, below⟩ := rows_opcode_range r hr
    rw [heq] at notZero gap below
    rcases h with zero | ⟨low, high⟩ | above
    · exact notZero zero
    · omega
    · omega
  · obtain ⟨why, hdecode⟩ := decode_eq_error_iff.2 fun r hr hsel => h r hr (Row.selects_iff.1 hsel)
    exact Machine.step_illegal hinputs hdecode

end Sys2Proof
end

section
/-! # The grammar statements (30_encoding.md, section 3): the parser against the grammar of R74

First what the parser answers, case by case, and what the grammar's operators are. Then soundness: whatever the parser
reads, the grammar derives. Then completeness: the parser reads every derivation, at a depth its bound covers. -/

namespace Sys2Proof.Machine

/-! ## What the parser answers, case by case -/

section
variable {fuel : Nat} {l : Level} {t : Token} {o : BinaryOp} {u : UnaryOp} {e : Expr} {ts rest : List Token}

theorem parseGoal_tail_nil : parseGoal (fuel + 1) (.tail l e) [] = some (e, []) := rfl

theorem parseGoal_tail_stop (h : binaryAt l t = none) :
    parseGoal (fuel + 1) (.tail l e) (t :: rest) = some (e, t :: rest) := by
  simp [parseGoal, h]

theorem parseGoal_tail_operator (h : binaryAt l t = some o) :
    parseGoal (fuel + 1) (.tail l e) (t :: rest) =
      (parseGoal fuel (.level (l + 1)) rest).bind fun p => parseGoal fuel (.tail l (.bin o e p.1)) p.2 := by
  rw [parseGoal, h]
  cases parseGoal fuel (.level (l + 1)) rest <;> rfl

theorem parseGoal_level (h : l < unaryLevel) :
    parseGoal (fuel + 1) (.level l) ts =
      (parseGoal fuel (.level (l + 1)) ts).bind fun p => parseGoal fuel (.tail l p.1) p.2 := by
  rw [parseGoal.eq_def]
  simp only [if_pos h]
  cases parseGoal fuel (.level (l + 1)) ts <;> rfl

theorem parseGoal_literal (n : Nat) :
    parseGoal (fuel + 1) (.level unaryLevel) (.lit n :: rest) = some (.lit n, rest) := rfl

/-- A parenthesis is read as far as the expression in it, and then has to close. -/
def closeParen : Expr × List Token → Option (Expr × List Token)
  | (e, .rparen :: rest) => some (e, rest)
  | _ => none

theorem closeParen_eq_some_iff {p q : Expr × List Token} :
    closeParen p = some q ↔ p = (q.1, .rparen :: q.2) := by
  rcases p with ⟨e, _ | ⟨t, rest⟩⟩
  · simp [closeParen]
  · cases t <;> simp [closeParen, Prod.ext_iff]

theorem parseGoal_lparen :
    parseGoal (fuel + 1) (.level unaryLevel) (.lparen :: rest) =
      (parseGoal fuel (.level 0) rest).bind closeParen := by
  rw [parseGoal, if_neg (lt_irrefl _)]
  rcases parseGoal fuel (.level 0) rest with _ | ⟨e, _ | ⟨t, rest'⟩⟩
  · rfl
  · rfl
  · cases t <;> rfl

theorem parseGoal_unary (h : unaryOf t = some u) :
    parseGoal (fuel + 1) (.level unaryLevel) (t :: rest) =
      (parseGoal fuel (.level unaryLevel) rest).map fun p => (.un u p.1, p.2) := by
  cases t <;> cases h <;> simp only [parseGoal, unaryOf, if_neg (lt_irrefl unaryLevel)] <;>
    cases parseGoal fuel (.level unaryLevel) rest <;> rfl

theorem parseGoal_no_unary (h : unaryOf t = none) (notLit : ∀ n, t ≠ .lit n) (notParen : t ≠ .lparen) :
    parseGoal (fuel + 1) (.level unaryLevel) (t :: rest) = none := by
  cases t <;> simp_all [parseGoal, unaryLevel, unaryOf]

/-- What a `unary` can start with: a literal, a parenthesis or a unary operator (R74). -/
theorem parseGoal_unaryLevel_cases {out : Expr × List Token}
    (h : parseGoal (fuel + 1) (.level unaryLevel) ts = some out) :
    (∃ n, ts = .lit n :: out.2 ∧ out.1 = .lit n) ∨
    (∃ rest, ts = .lparen :: rest ∧ parseGoal fuel (.level 0) rest = some (out.1, .rparen :: out.2)) ∨
    ∃ t u rest e, ts = t :: rest ∧ unaryOf t = some u ∧ parseGoal fuel (.level unaryLevel) rest = some (e, out.2) ∧
      out.1 = .un u e := by
  rcases ts with _ | ⟨t, rest⟩
  · cases h
  · by_cases lit : ∃ n, t = .lit n
    · obtain ⟨n, rfl⟩ := lit
      cases (parseGoal_literal n).symm.trans h
      exact .inl ⟨n, rfl, rfl⟩
    by_cases paren : t = .lparen
    · subst paren
      rw [parseGoal_lparen, Option.bind_eq_some_iff] at h
      obtain ⟨p, hp, hclose⟩ := h
      exact .inr (.inl ⟨rest, rfl, closeParen_eq_some_iff.1 hclose ▸ hp⟩)
    cases op : unaryOf t with
    | none => cases (parseGoal_no_unary op (not_exists.1 lit) paren).symm.trans h
    | some u =>
      rw [parseGoal_unary op, Option.map_eq_some_iff] at h
      obtain ⟨⟨e, rest'⟩, hp, rfl⟩ := h
      exact .inr (.inr ⟨t, u, rest, e, rfl, op, hp, rfl⟩)

end

/-- The level at which a token is a binary operator (R74). -/
def operatorLevel : Token → Option Level
  | .bar => some 0
  | .caret => some 1
  | .amp => some 2
  | .shl | .shr => some 3
  | .plus | .minus => some 4
  | .star | .slash | .percent => some 5
  | _ => none

/-- A token is an operator at one level at most (R74). -/
theorem operatorLevel_of_binaryAt {l : Level} {t : Token} {o : BinaryOp} (h : binaryAt l t = some o) :
    operatorLevel t = some l := by
  unfold binaryAt at h
  split at h <;> cases h <;> rfl

theorem operatorLevel_lt {t : Token} {l : Level} (h : operatorLevel t = some l) : l < unaryLevel := by
  cases t <;> cases h <;> decide

/-- The binary operators stand at the levels looser than `unary` (R74). -/
theorem lt_unaryLevel_of_binaryAt {l : Level} {t : Token} {o : BinaryOp} (h : binaryAt l t = some o) :
    l < unaryLevel :=
  operatorLevel_lt (operatorLevel_of_binaryAt h)

theorem binaryAt_eq_none {k : Level} {t : Token} (h : operatorLevel t ≠ some k) : binaryAt k t = none := by
  cases hk : binaryAt k t with
  | none => rfl
  | some o => exact absurd (operatorLevel_of_binaryAt hk) h

/-! ## Soundness -/

/-- The goals the parser of a text comes to: no level beyond `unary` is looked for. -/
def Goal.InGrammar : Goal → Prop
  | .level l => l ≤ unaryLevel
  | .tail _ _ => True

/-- What it means that the parser reads these tokens as this expression: the grammar derives it from them, for a tail
behind any derivation of its left operand. -/
def Goal.Derived : Goal → List Token → Expr → Prop
  | .level l, used, e => Derives l used e
  | .tail l left, used, e => ∀ before, Derives l before left → Derives l (before ++ used) e

/-- By induction on the depth of the descent. -/
theorem parseGoal_sound (fuel : Nat) : ∀ (g : Goal) (ts rest : List Token) (e : Expr),
    parseGoal fuel g ts = some (e, rest) → g.InGrammar → ∃ used, ts = used ++ rest ∧ g.Derived used e := by
  induction fuel with
  | zero => exact fun _ _ _ _ h => nomatch h
  | succ fuel ih =>
    intro g ts rest e h hg
    cases g with
    | tail l left =>
      rcases ts with _ | ⟨t, ts⟩
      · cases h
        exact ⟨[], rfl, fun before hb => by rwa [List.append_nil]⟩
      cases op : binaryAt l t with
      | none =>
        cases (parseGoal_tail_stop op).symm.trans h
        exact ⟨[], rfl, fun before hb => by rwa [List.append_nil]⟩
      | some o =>
        rw [parseGoal_tail_operator op, Option.bind_eq_some_iff] at h
        obtain ⟨⟨r, mid⟩, hright, htail⟩ := h
        obtain ⟨right, rfl, hr⟩ := ih _ _ _ _ hright (lt_unaryLevel_of_binaryAt op)
        obtain ⟨more, rfl, hmore⟩ := ih _ _ _ _ htail trivial
        refine ⟨t :: right ++ more, by simp, fun before hb => ?_⟩
        rw [← List.append_assoc]
        exact hmore _ (.binary op hb hr)
    | level l =>
      rcases Nat.lt_or_eq_of_le hg with hl | rfl
      · rw [parseGoal_level hl, Option.bind_eq_some_iff] at h
        obtain ⟨⟨left, mid⟩, hfirst, htail⟩ := h
        obtain ⟨first, rfl, hf⟩ := ih _ _ _ _ hfirst hl
        obtain ⟨more, rfl, hmore⟩ := ih _ _ _ _ htail trivial
        exact ⟨first ++ more, by simp, hmore _ (.up hl hf)⟩
      · rcases parseGoal_unaryLevel_cases h with
          ⟨n, rfl, rfl⟩ | ⟨inner, rfl, hparen⟩ | ⟨t, u, ts, e', rfl, op, hp, rfl⟩
        · exact ⟨[.lit n], rfl, .primary (.lit n)⟩
        · obtain ⟨used, rfl, hused⟩ := ih _ _ _ _ hparen (Nat.zero_le _)
          exact ⟨.lparen :: (used ++ [.rparen]), by simp, .primary (.paren hused)⟩
        · obtain ⟨used, rfl, hused⟩ := ih _ _ _ _ hp le_rfl
          exact ⟨t :: used, rfl, .unary op hused⟩

theorem parse_eq_some_iff {ts : List Token} {e : Expr} :
    parse ts = some e ↔ parseGoal (8 * (ts.length + 1)) (.level 0) ts = some (e, []) := by
  unfold parse
  split <;> simp_all

/-- Settles O55. -/
theorem parserFollowsTheGrammar : Obligations.ParserFollowsTheGrammar := by
  unfold Obligations.ParserFollowsTheGrammar
  intro ts e h
  obtain ⟨used, hts, derived⟩ := parseGoal_sound _ _ _ _ _ (parse_eq_some_iff.1 h) (Nat.zero_le _)
  rw [hts, List.append_nil]
  exact derived

/-! ## Completeness -/

/-- No operator of the levels from `l` on stands next. Such a token would be read into the expression before it. -/
def NoOperatorFrom (l : Level) (rest : List Token) : Prop :=
  ∀ k, l ≤ k → ∀ t ∈ rest.head?, binaryAt k t = none

/-- With this depth or more, the parser answers `out`. -/
def ParsesFrom (depth : Nat) (g : Goal) (ts : List Token) (out : Expr × List Token) : Prop :=
  ∀ fuel, depth ≤ fuel → parseGoal fuel g ts = some out

section
variable {l : Level} {n m : Nat} {t : Token} {o : BinaryOp} {u : UnaryOp} {e f : Expr} {ts rest : List Token}
  {out : Expr × List Token}

/-- What is answered with one step more, from depth `n` on, is answered from depth `n + 1` on. -/
theorem parsesFrom_succ {g : Goal} (h : ∀ fuel, n ≤ fuel → parseGoal (fuel + 1) g ts = some out) :
    ParsesFrom (n + 1) g ts out := by
  intro fuel hfuel
  obtain ⟨fuel, rfl⟩ := Nat.exists_eq_add_of_le' (Nat.le_trans (Nat.succ_le_succ (Nat.zero_le n)) hfuel)
  exact h fuel (Nat.le_of_succ_le_succ hfuel)

theorem ParsesFrom.mono {g : Goal} (h : ParsesFrom n g ts out) (hle : n ≤ m) : ParsesFrom m g ts out :=
  fun fuel hfuel => h fuel (hle.trans hfuel)

/-- Where no operator of the level stands next, its tail ends. -/
theorem parsesFrom_tail_end (h : NoOperatorFrom l rest) : ParsesFrom 1 (.tail l e) rest (e, rest) := by
  refine parsesFrom_succ (n := 0) fun fuel _ => ?_
  rcases rest with _ | ⟨t, rest⟩
  · exact parseGoal_tail_nil
  · exact parseGoal_tail_stop (h l le_rfl t rfl)

theorem parsesFrom_tail_operator (h : binaryAt l t = some o) (hright : ParsesFrom n (.level (l + 1)) ts (f, rest))
    (htail : ParsesFrom n (.tail l (.bin o e f)) rest out) : ParsesFrom (n + 1) (.tail l e) (t :: ts) out := by
  refine parsesFrom_succ fun fuel hfuel => ?_
  rw [parseGoal_tail_operator h, hright fuel hfuel]
  exact htail fuel hfuel

theorem parsesFrom_level (hl : l < unaryLevel) (hfirst : ParsesFrom n (.level (l + 1)) ts (e, rest))
    (htail : ParsesFrom n (.tail l e) rest out) : ParsesFrom (n + 1) (.level l) ts out := by
  refine parsesFrom_succ fun fuel hfuel => ?_
  rw [parseGoal_level hl, hfirst fuel hfuel]
  exact htail fuel hfuel

theorem parsesFrom_literal (n : Nat) : ParsesFrom 1 (.level unaryLevel) (.lit n :: rest) (.lit n, rest) :=
  parsesFrom_succ (n := 0) fun _ _ => parseGoal_literal n

theorem parsesFrom_paren (h : ParsesFrom n (.level 0) ts (e, .rparen :: rest)) :
    ParsesFrom (n + 1) (.level unaryLevel) (.lparen :: ts) (e, rest) := by
  refine parsesFrom_succ fun fuel hfuel => ?_
  rw [parseGoal_lparen, h fuel hfuel]
  rfl

theorem parsesFrom_unary (hu : unaryOf t = some u) (h : ParsesFrom n (.level unaryLevel) ts (e, rest)) :
    ParsesFrom (n + 1) (.level unaryLevel) (t :: ts) (.un u e, rest) := by
  refine parsesFrom_succ fun fuel hfuel => ?_
  rw [parseGoal_unary hu, h fuel hfuel]
  rfl

end

theorem noOperatorFrom_nil (l : Level) : NoOperatorFrom l [] :=
  fun _ _ _ h => nomatch h

theorem noOperatorFrom_rparen (l : Level) (rest : List Token) : NoOperatorFrom l (.rparen :: rest) := by
  rintro k - t ⟨⟩
  exact binaryAt_eq_none nofun

/-- An operator of a level is none of the tighter levels. -/
theorem noOperatorFrom_operator {l : Level} {t : Token} {o : BinaryOp} (h : binaryAt l t = some o)
    (rest : List Token) : NoOperatorFrom (l + 1) (t :: rest) := by
  rintro k hk _ ⟨⟩
  refine binaryAt_eq_none fun hk' => ?_
  cases (operatorLevel_of_binaryAt h).symm.trans hk'
  exact absurd hk (Nat.not_succ_le_self l)

theorem NoOperatorFrom.mono {l k : Level} {rest : List Token} (h : NoOperatorFrom l rest) (hle : l ≤ k) :
    NoOperatorFrom k rest :=
  fun j hj => h j (hle.trans hj)

/-- The parser, looking for the level, reads the tokens as the expression, to where no operator of the level stands. The
depth it needs is linear in the number of tokens, and less the tighter the level. -/
def ReadsWhole (l : Level) (ts : List Token) (e : Expr) : Prop :=
  ∀ rest, NoOperatorFrom l rest → ∀ d, 8 * ts.length ≤ d + l → ParsesFrom d (.level l) (ts ++ rest) (e, rest)

/-- The parser, looking for the level, reads the tokens as a left operand of what it reads in the tail after them: an
expression of a binary level may go on with a further operator of its own level (left association, R74). -/
def ReadsLeft (l : Level) (ts : List Token) (e : Expr) : Prop :=
  ∀ rest, NoOperatorFrom (l + 1) rest → ∀ n out, ParsesFrom n (.tail l e) rest out →
    ∀ d, 8 * ts.length ≤ d + l → n + ts.length ≤ d → ParsesFrom d (.level l) (ts ++ rest) out

/-- How the parser reads what the grammar derives: at a binary level as a left operand, and from `unary` on whole. -/
structure Found (l : Level) (ts : List Token) (e : Expr) : Prop where
  nonempty : 0 < ts.length
  left : l < 6 → ReadsLeft l ts e
  whole : 6 ≤ l → ReadsWhole 6 ts e

/-- A left operand is a whole expression where its tail is empty. -/
theorem Found.readsWhole {l : Level} {ts : List Token} {e : Expr} (h : Found l ts e) (hl : l ≤ 6) :
    ReadsWhole l ts e := by
  rcases Nat.lt_or_eq_of_le hl with binary | rfl
  · intro rest hrest d hd
    have := h.nonempty
    exact h.left binary rest (hrest.mono (Nat.le_succ l)) 1 _ (parsesFrom_tail_end hrest) d hd (by omega)
  · exact h.whole le_rfl

/-- By induction on the derivation. -/
theorem found_of_derives {l : Level} {ts : List Token} {e : Expr} (h : Derives l ts e) : Found l ts e := by
  induction h with
  | lit n =>
    refine ⟨Nat.one_pos, fun binary => absurd binary (by decide), fun _ rest _ d hd => ?_⟩
    exact (parsesFrom_literal n).mono (by simp only [List.length_singleton] at hd; omega)
  | @paren ts e _ ih =>
    refine ⟨by simp, fun binary => absurd binary (by decide), fun _ rest _ d hd => ?_⟩
    simp only [List.length_cons, List.length_append, List.length_nil] at hd
    obtain ⟨d, rfl⟩ : ∃ d', d = d' + 1 := ⟨d - 1, by omega⟩
    have inner := ih.readsWhole (Nat.zero_le _) (.rparen :: rest) (noOperatorFrom_rparen 0 rest) d (by omega)
    simpa [unaryLevel] using parsesFrom_paren inner
  | primary _ ih => exact ⟨ih.nonempty, fun binary => absurd binary (lt_irrefl _), fun _ => ih.whole (by decide)⟩
  | @unary t u ts e hu _ ih =>
    refine ⟨by simp, fun binary => absurd binary (lt_irrefl _), fun _ rest hrest d hd => ?_⟩
    simp only [List.length_cons] at hd
    obtain ⟨d, rfl⟩ : ∃ d', d = d' + 1 := ⟨d - 1, by omega⟩
    exact parsesFrom_unary hu (ih.whole le_rfl rest hrest d (by omega))
  | @up l ts e hl _ ih =>
    refine ⟨ih.nonempty, fun _ rest hrest n out htail d hd hn => ?_, fun unary => absurd hl (not_lt.2 unary)⟩
    have := ih.nonempty
    obtain ⟨d, rfl⟩ : ∃ d', d = d' + 1 := ⟨d - 1, by omega⟩
    exact parsesFrom_level hl (ih.readsWhole hl rest hrest d (by omega)) (htail.mono (by omega))
  | @binary l t o ts us e f op _ _ ihl ihr =>
    have hl : l < 6 := lt_unaryLevel_of_binaryAt op
    refine ⟨by simp, fun _ rest hrest n out htail d hd hn => ?_, fun unary => absurd hl (not_lt.2 unary)⟩
    simp only [List.length_append, List.length_cons] at hd hn
    obtain ⟨k, rfl⟩ : ∃ k, d = k + 1 + ts.length := ⟨d - ts.length - 1, by omega⟩
    have right := ihr.readsWhole hl rest hrest k (by omega)
    have tail := parsesFrom_tail_operator op right (htail.mono (by omega))
    simpa using ihl.left hl _ (noOperatorFrom_operator op _) _ out tail _ (by omega) le_rfl

/-- Settles O56. -/
theorem parserFindsEveryDerivation : Obligations.ParserFindsEveryDerivation := by
  unfold Obligations.ParserFindsEveryDerivation
  intro ts e h
  have read := (found_of_derives h).readsWhole (Nat.zero_le _) [] (noOperatorFrom_nil 0) (8 * ts.length) le_rfl
  rw [List.append_nil] at read
  exact parse_eq_some_iff.2 (read _ (by omega))

end Sys2Proof.Machine
end

section
/-! # Whole evaluations (30_encoding.md, section 3): the commands of an expression against its reference meaning

First a way to speak of a run command by command: `Issues`, with a rule for commands in sequence. Then what a part of an
evaluation comes to, `ComesTo`, with a rule for a part that needs the value of the part before it. An expression's
commands are put together from single commands by that rule, in the same way as `Expr.bounded` is from its operands. -/

namespace Sys2Proof.Machine

/-! ## Commands in sequence -/

/-- The host's inputs that are these instructions' commands. -/
def commandInputs (is : List Instr) : List Input := is.map fun i => .command (encode i)

/-- In the state `s`, but with these instructions' commands next on the port, the unit runs them all, takes nothing else
off the port, and ends as `P` says. -/
def Issues (is : List Instr) (s : State) (P : State → Prop) : Prop :=
  ∀ rest, ∃ t, run is.length { s with inputs := commandInputs is ++ rest } = .next t ∧ t.inputs = rest ∧ P t

section
variable {is js : List Instr} {i : Instr} {s : State} {P Q : State → Prop}

theorem Issues.imp (h : Issues is s P) (hPQ : ∀ t, P t → Q t) : Issues is s Q := by
  intro rest
  obtain ⟨t, hrun, hinputs, hP⟩ := h rest
  exact ⟨t, hrun, hinputs, hPQ t hP⟩

theorem issues_nil (h : P s) (hP : ∀ rest, P s → P { s with inputs := rest }) : Issues [] s P :=
  fun rest => ⟨_, rfl, rfl, hP rest h⟩

/-- One command's run is its meaning. -/
theorem issues_single (wf : i.wf = true) (h : ∀ rest, ∃ t, exec i { s with inputs := rest } = .next t ∧ P t) :
    Issues [i] s P := by
  intro rest
  obtain ⟨t, hexec, hP⟩ := h rest
  have hstep : step { s with inputs := commandInputs [i] ++ rest } = .next t :=
    (step_command (rest := rest) rfl (decode_encode wf)).trans hexec
  exact ⟨t, run_succ 0 hstep, exec_inputs hexec, hP⟩

theorem Issues.append (h : Issues is s P) (hnext : ∀ t, P t → Issues js t Q) : Issues (is ++ js) s Q := by
  intro rest
  obtain ⟨t, hrun, hinputs, hP⟩ := h (commandInputs js ++ rest)
  obtain ⟨u, hrun', hinputs', hQ⟩ := hnext t hP rest
  refine ⟨u, ?_, hinputs', hQ⟩
  rw [← hinputs] at hrun'
  rw [List.length_append, commandInputs, List.map_append, List.append_assoc]
  exact (run_add _ _ hrun).trans hrun'

/-- The run in which the host presents the commands and nothing else. -/
theorem Issues.runInstrs (h : Issues is s P) (empty : s.inputs = []) :
    ∃ t, runInstrs is s = .next t ∧ t.inputs = [] ∧ P t := by
  obtain ⟨t, hrun, hinputs, hP⟩ := h []
  refine ⟨t, ?_, hinputs, hP⟩
  rw [← hrun, Machine.runInstrs, State.present, empty, List.map_map, List.nil_append, List.append_nil]
  rfl

end

/-! ## What a part of an evaluation comes to -/

/-- The part has left one entry of value `v` on top of `pre`, by `n` commands that all succeeded. -/
structure Pushed (s : State) (pre : List Entry) (n : Nat) (v : Int) (t : State) : Prop where
  live : ∃ x : Entry, x.toInt = v ∧ t.live = pre ++ [x]
  eerr : t.eerr = 0
  value : t.value = s.value
  raw : t.raw = s.raw
  responses : t.responses = s.responses ++ List.replicate n ⟨0, 0⟩

/-- One of the part's `n` commands has failed with `e`: those before it succeeded, and it and all after it return `e`
(R83, R140). -/
structure Failed (s : State) (n : Nat) (e : Err) (t : State) : Prop where
  eerr : t.eerr = e.code
  value : t.value = s.value
  raw : t.raw = s.raw
  responses : ∃ k m, k + m = n ∧ 0 < m ∧
    t.responses = s.responses ++ List.replicate k ⟨0, 0⟩ ++ List.replicate m ⟨e.code, 0⟩

/-- What `n` commands come to that compute `x` on top of the entries `pre`. -/
def ComesTo (s : State) (pre : List Entry) (n : Nat) : Except Err Int → State → Prop
  | .ok v => Pushed s pre n v
  | .error e => Failed s n e

/-- The instructions, run in a state `s`, compute `x` on top of the entries `pre`. -/
def Computes (is : List Instr) (s : State) (pre : List Entry) (x : Except Err Int) : Prop :=
  Issues is s (ComesTo s pre is.length x)

theorem Err.code_ne_zero (e : Err) : e.code ≠ 0 := by cases e <;> decide

/-- A state with nothing changed but the responses, which are `n` times the sticky error. -/
structure Blocked (s : State) (n : Nat) (t : State) : Prop where
  eerr : t.eerr = s.eerr
  value : t.value = s.value
  raw : t.raw = s.raw
  responses : t.responses = s.responses ++ List.replicate n ⟨s.eerr, 0⟩

/-- What every command of an evaluation but EBEGIN is: gated, and well formed. -/
def Gated (is : List Instr) : Prop := is.all (fun i => i.isGated && i.wf) = true

theorem gated_cons_iff {i : Instr} {is : List Instr} :
    Gated (i :: is) ↔ (i.isGated = true ∧ i.wf = true) ∧ Gated is := by
  simp [Gated]

theorem Gated.append {is js : List Instr} (h : Gated is) (h' : Gated js) : Gated (is ++ js) := by
  rw [Gated, List.all_append, h, h']
  rfl

theorem exec_blocked {i : Instr} {s : State} (gated : i.isGated = true) (sticky : s.eerr ≠ 0) :
    ∃ t, exec i s = .next t ∧ Blocked s 1 t := by
  obtain ⟨t, hrun, effect⟩ := exec_effect i s
  obtain ⟨r, kept⟩ := effect.keepsError sticky (by rintro rfl; cases gated)
  refine ⟨t, hrun, kept.eerr, kept.value (isRegister_of_isGated gated), kept.raw, ?_⟩
  rw [kept.responses, kept.reported gated]
  rfl

theorem issues_blocked {is : List Instr} (gated : Gated is) {s : State} (sticky : s.eerr ≠ 0) :
    Issues is s (Blocked s is.length) := by
  induction is generalizing s with
  | nil =>
    exact issues_nil ⟨rfl, rfl, rfl, by simp⟩ fun rest h => ⟨h.eerr, h.value, h.raw, h.responses⟩
  | cons i is ih =>
    obtain ⟨⟨igated, wf⟩, gated⟩ := gated_cons_iff.1 gated
    refine Issues.append (is := [i]) (issues_single (P := Blocked s 1) wf fun rest => ?_) fun t first => ?_
    · obtain ⟨t, hexec, b⟩ := exec_blocked (s := { s with inputs := rest }) igated sticky
      exact ⟨t, hexec, b.eerr, b.value, b.raw, b.responses⟩
    · refine (ih gated (first.eerr ▸ sticky)).imp fun u more => ?_
      refine ⟨more.eerr.trans first.eerr, more.value.trans first.value, more.raw.trans first.raw, ?_⟩
      rw [more.responses, first.responses, first.eerr, List.append_assoc, ← List.replicate_add, Nat.add_comm]
      rfl

section
variable {is js : List Instr} {s t u : State} {pre pre' : List Entry} {n m : Nat} {v : Int} {e : Err}

/-- Commands after the first failure are blocked. -/
theorem Failed.blocked (h : Failed s n e t) (b : Blocked t m u) : Failed s (n + m) e u := by
  obtain ⟨k, j, hkj, hj, hresponses⟩ := h.responses
  refine ⟨b.eerr.trans h.eerr, b.value.trans h.value, b.raw.trans h.raw, k, j + m, by omega, by omega, ?_⟩
  rw [b.responses, hresponses, h.eerr, List.append_assoc, ← List.replicate_add]

theorem Pushed.comesTo (h : Pushed s pre n v t) {x : Except Err Int} (next : ComesTo t pre' m x u) :
    ComesTo s pre' (n + m) x u := by
  cases x with
  | ok w =>
    have next : Pushed t pre' m w u := next
    refine ⟨next.live, next.eerr, next.value.trans h.value, next.raw.trans h.raw, ?_⟩
    rw [next.responses, h.responses, List.append_assoc, ← List.replicate_add]
  | error e =>
    have next : Failed t m e u := next
    obtain ⟨k, j, hkj, hj, hresponses⟩ := next.responses
    refine ⟨next.eerr, next.value.trans h.value, next.raw.trans h.raw, n + k, j, by omega, hj, ?_⟩
    rw [hresponses, h.responses, List.append_assoc s.responses, ← List.replicate_add]

/-- A part that needs the value of the part before it: where that fails, the whole fails in the same way. -/
theorem Computes.bind {x : Except Err Int} {f : Int → Except Err Int} (h : Computes is s pre x) (gated : Gated js)
    (hnext : ∀ (a : Entry) (t : State), x = .ok a.toInt → t.eerr = 0 → t.live = pre ++ [a] →
      Computes js t pre' (f a.toInt)) :
    Computes (is ++ js) s pre' (x.bind f) := by
  cases x with
  | ok v =>
    refine h.append fun t pushed => ?_
    have pushed : Pushed s pre is.length v t := pushed
    obtain ⟨a, rfl, hlive⟩ := pushed.live
    refine (hnext a t rfl pushed.eerr hlive).imp fun u after => ?_
    rw [List.length_append]
    exact pushed.comesTo after
  | error e =>
    refine h.append fun t failed => ?_
    have failed : Failed s is.length e t := failed
    refine (issues_blocked gated (failed.eerr ▸ e.code_ne_zero)).imp fun u b => ?_
    rw [List.length_append]
    exact failed.blocked b

end

/-! ## Single commands -/

/-- An operator's own result, checked against `EVAL_WIDTH` (R142, R148). -/
def checked (x : Except Err Int) : Except Err Int :=
  x.bind fun v => if fits Config.thisHardware v then .ok v else .error .evalOverflow

theorem checked_ok_of_fits {v : Int} (h : fits Config.thisHardware v = true) : checked (.ok v) = .ok v :=
  if_pos h

theorem checked_ok_of_not_fits {v : Int} (h : fits Config.thisHardware v ≠ true) :
    checked (.ok v) = .error .evalOverflow :=
  if_neg h

section
variable {s : State} {pre : List Entry} {i : Instr} {a b : Entry}

/-- A command that fails in a state without a sticky error. -/
theorem failed_latch (s : State) (rest : List Input) (e : Err) :
    Failed s 1 e ((State.latch { s with inputs := rest } e).respond e.code 0) :=
  ⟨rfl, rfl, rfl, 0, 1, rfl, Nat.one_pos, by simp⟩

theorem finishOperator_comesTo {store : Entry → State} {rest : List Input} (clear : s.eerr = 0)
    (h : LeavesAbove pre { s with inputs := rest } store) (x : Except Err Int) :
    ∃ t, finishOperator x { s with inputs := rest } store = .next t ∧ ComesTo s pre 1 (checked x) t := by
  rcases finishOperator_cases x { s with inputs := rest } store with
    ⟨e, rfl, hrun⟩ | ⟨r, rfl, hfits, hrun⟩ | ⟨r, rfl, hfits, hrun⟩
  · exact ⟨_, hrun, failed_latch s rest e⟩
  · obtain ⟨hlive, hvalue, hraw, heerr, -, hresponses⟩ := h (BitVec.ofInt 128 r)
    refine ⟨_, hrun, ?_⟩
    rw [checked_ok_of_fits hfits]
    refine ⟨⟨_, toInt_ofInt_of_fits hfits, hlive⟩, heerr.trans clear, hvalue, hraw, ?_⟩
    rw [State.respond_responses, hresponses]
    rfl
  · refine ⟨_, hrun, ?_⟩
    rw [checked_ok_of_not_fits (by simp [hfits])]
    exact failed_latch s rest .evalOverflow

theorem computes_unop {f : Int → Except Err Int} (meaning : ∀ s, exec i s = unop f s) (wf : i.wf = true)
    (clear : s.eerr = 0) (hlive : s.live = pre ++ [a]) : Computes [i] s pre (checked (f a.toInt)) := by
  refine issues_single wf fun rest => ?_
  obtain ⟨store, hrun, hstore⟩ := unop_live (f := f) (s := { s with inputs := rest }) clear hlive
  rw [meaning, hrun]
  exact finishOperator_comesTo clear hstore _

theorem computes_binop {f : Int → Int → Except Err Int} (meaning : ∀ s, exec i s = binop f s) (wf : i.wf = true)
    (clear : s.eerr = 0) (hlive : s.live = pre ++ [a, b]) : Computes [i] s pre (checked (f a.toInt b.toInt)) := by
  refine issues_single wf fun rest => ?_
  obtain ⟨store, hrun, hstore⟩ := binop_live (f := f) (s := { s with inputs := rest }) clear hlive
  rw [meaning, hrun]
  exact finishOperator_comesTo clear hstore _

theorem computes_push (v : Word) (clear : s.eerr = 0) (room : s.live.length < 16) :
    Computes [.push v] s s.live (.ok v.toNat) := by
  have room' : s.edepth.val < 16 := s.live_length ▸ room
  refine issues_single rfl fun rest => ⟨_, execPush_room (s := { s with inputs := rest }) v clear room', ?_⟩
  exact ⟨⟨_, toInt_setWidth_word v, State.push_live _ _ room'⟩, clear, rfl, rfl, rfl⟩

theorem computes_push_full (v : Word) (clear : s.eerr = 0) (full : s.live.length = 16) :
    Computes [.push v] s s.live (.error .stackOverflow) := by
  refine issues_single rfl fun rest => ⟨_, execPush_full (s := { s with inputs := rest }) v clear ?_, ?_⟩
  · exact s.live_length ▸ full
  · exact failed_latch s rest .stackOverflow

end

/-! ## The operators (R79) -/

section
variable {s : State} {pre : List Entry} {a b : Entry}

theorem shl_apply (a b : Int) :
    BinaryOp.shl.apply a b = if b < 0 then .error .shiftCountNegative else .ok (ishl a b.toNat) := rfl

theorem shr_apply (a b : Int) :
    BinaryOp.shr.apply a b = if b < 0 then .error .shiftCountNegative else .ok (ishr a b.toNat) := rfl

/-- ESHL's count is capped, which changes neither whether the result fits nor the result (R167). -/
theorem checked_aluShl (a b : Int) :
    checked (aluShl Config.thisHardware a b) = checked (BinaryOp.shl.apply a b) := by
  obtain ⟨hfits, hvalue⟩ := ishl_shiftCount (cfg := Config.thisHardware) (a := a) (b := b)
  rw [aluShl, shl_apply]
  by_cases negative : b < 0
  · rw [if_pos negative, if_pos negative]
  · rw [if_neg negative, if_neg negative]
    by_cases h : fits Config.thisHardware (ishl a b.toNat) = true
    · rw [hvalue h]
    · rw [checked_ok_of_not_fits h, checked_ok_of_not_fits (hfits ▸ h)]

/-- ESHR's count is capped, which does not change the result for a stack entry (R168). -/
theorem aluShr_toInt (a : Entry) (b : Int) : aluShr Config.thisHardware a.toInt b = BinaryOp.shr.apply a.toInt b := by
  rw [aluShr, shr_apply, ishr_shiftCount (fits_toInt a)]

theorem computes_unaryOp (u : UnaryOp) (clear : s.eerr = 0) (hlive : s.live = pre ++ [a]) :
    Computes [u.command] s pre (checked (.ok (u.apply a.toInt))) := by
  cases u with
  | neg => exact computes_unop exec_eneg rfl clear hlive
  | not => exact computes_unop exec_enot rfl clear hlive

theorem computes_binaryOp (o : BinaryOp) (clear : s.eerr = 0) (hlive : s.live = pre ++ [a, b]) :
    Computes [o.command] s pre (checked (o.apply a.toInt b.toInt)) := by
  cases o with
  | mul => exact computes_binop exec_emul rfl clear hlive
  | div => exact computes_binop exec_ediv rfl clear hlive
  | mod => exact computes_binop exec_emod rfl clear hlive
  | add => exact computes_binop exec_eadd rfl clear hlive
  | sub => exact computes_binop exec_esub rfl clear hlive
  | shl => exact checked_aluShl a.toInt b.toInt ▸ computes_binop exec_eshl rfl clear hlive
  | shr => exact aluShr_toInt a b.toInt ▸ computes_binop exec_eshr rfl clear hlive
  | and => exact computes_binop exec_eand rfl clear hlive
  | xor => exact computes_binop exec_exor rfl clear hlive
  | or => exact computes_binop exec_eor rfl clear hlive

theorem gated_unaryOp (u : UnaryOp) : Gated [u.command] := by
  cases u <;> rfl

theorem gated_binaryOp (o : BinaryOp) : Gated [o.command] := by
  cases o <;> rfl

end

/-! ## Literals (R78) -/

theorem gated_literalChunks (m n : Nat) : Gated (literalChunks m n) := by
  induction m generalizing n with
  | zero => rfl
  | succ m ih => exact (ih (n / 2 ^ 64)).append rfl

/-- A non-negative value fits when it lies below `2^127` (R142). -/
theorem fits_natCast_iff (n : Nat) : fits Config.thisHardware n = true ↔ n < 2 ^ 127 := by
  rw [fits_iff]
  omega

theorem checked_natCast (n : Nat) :
    checked (.ok (n : Int)) = if n < 2 ^ 127 then .ok (n : Int) else .error .evalOverflow := by
  by_cases h : n < 2 ^ 127
  · rw [if_pos h, checked_ok_of_fits ((fits_natCast_iff n).2 h)]
  · rw [if_neg h, checked_ok_of_not_fits (mt (fits_natCast_iff n).1 h)]

theorem shl_apply_natCast (a : Int) (n : Nat) : BinaryOp.shl.apply a n = .ok (a * ((2 ^ n : Nat) : Int)) := by
  rw [shl_apply, if_neg (by omega), ishl, Int.toNat_natCast]

/-- ESHL by 64 moves a value one chunk up. -/
theorem shl_apply_chunk (q : Nat) :
    BinaryOp.shl.apply q ((64 : Word).toNat : Int) = .ok ((q * 2 ^ 64 : Nat) : Int) := by
  rw [shl_apply_natCast, Nat.cast_mul]
  rfl

theorem or_apply_natCast (a b : Nat) : BinaryOp.or.apply a b = .ok ((a ||| b : Nat) : Int) := rfl

/-- EOR puts a chunk into the zeros below a value that was moved up. -/
theorem or_apply_chunk (q : Nat) (d : Word) :
    BinaryOp.or.apply ((q * 2 ^ 64 : Nat) : Int) (d.toNat : Int) = .ok ((q * 2 ^ 64 + d.toNat : Nat) : Int) := by
  rw [or_apply_natCast, ← Nat.shiftLeft_eq, Nat.shiftLeft_add_eq_or_of_lt d.isLt]

theorem exceptBind_ok (v : Int) (f : Int → Except Err Int) : (Except.ok v).bind f = f v := rfl

theorem exceptBind_error (e : Err) (f : Int → Except Err Int) : (Except.error e).bind f = .error e := rfl

/-- A literal of the higher chunks `q` and the lowest chunk `d` that does not fit fails at the chunk it stops fitting
with: `q` does not fit either, or moving it up overflows. -/
theorem checked_chunks (q : Nat) (d : Word) :
    (checked (.ok q)).bind (fun a => (Except.ok ((64 : Word).toNat : Int)).bind fun b =>
      (checked (BinaryOp.shl.apply a b)).bind fun a => (Except.ok (d.toNat : Int)).bind fun b =>
        checked (BinaryOp.or.apply a b)) =
    checked (.ok ((q * 2 ^ 64 + d.toNat : Nat) : Int)) := by
  have moved_of_whole : q * 2 ^ 64 + d.toNat < 2 ^ 127 → q * 2 ^ 64 < 2 ^ 127 := by omega
  have high_of_whole : q * 2 ^ 64 + d.toNat < 2 ^ 127 → q < 2 ^ 127 := by omega
  by_cases high : q < 2 ^ 127
  · rw [checked_natCast q, if_pos high, exceptBind_ok, exceptBind_ok, shl_apply_chunk, checked_natCast]
    by_cases moved : q * 2 ^ 64 < 2 ^ 127
    · rw [if_pos moved, exceptBind_ok, exceptBind_ok, or_apply_chunk]
    · rw [if_neg moved, exceptBind_error, checked_natCast, if_neg (mt moved_of_whole moved)]
  · rw [checked_natCast q, if_neg high, exceptBind_error, checked_natCast, if_neg (mt high_of_whole high)]

/-- With the room for it, a literal's commands push its value, if it fits. -/
theorem computes_literalChunks {m n : Nat} {s : State} (clear : s.eerr = 0) (hn : n < 2 ^ (64 * (m + 1)))
    (room : s.live.length + (if m = 0 then 1 else 2) ≤ 16) :
    Computes (literalChunks m n) s s.live (checked (.ok n)) := by
  induction m generalizing n with
  | zero =>
    have hn : n < 2 ^ 64 := hn
    have pushed := computes_push (BitVec.ofNat 64 n) clear (by simpa using room)
    rw [BitVec.toNat_ofNat, Nat.mod_eq_of_lt hn] at pushed
    rw [checked_natCast, if_pos (by omega)]
    exact pushed
  | succ m ih =>
    rw [if_neg (Nat.succ_ne_zero m)] at room
    have high : n / 2 ^ 64 < 2 ^ (64 * (m + 1)) := by
      rw [Nat.div_lt_iff_lt_mul (by positivity), ← pow_add]
      exact hn
    have join : n / 2 ^ 64 * 2 ^ 64 + (BitVec.ofNat 64 n).toNat = n := by
      rw [BitVec.toNat_ofNat, Nat.mul_comm, Nat.div_add_mod]
    rw [← join, ← checked_chunks, join]
    refine (ih high (by split <;> omega)).bind rfl fun q t _ clear ht => ?_
    have room' : t.live.length < 16 := by rw [ht, List.length_append, List.length_singleton]; omega
    refine (computes_push 64 clear room').bind (is := [_]) rfl fun c t _ clear ht' => ?_
    rw [ht, List.append_assoc] at ht'
    refine (computes_binaryOp .shl clear ht').bind (is := [_]) rfl fun h t _ clear ht => ?_
    have room' : t.live.length < 16 := by rw [ht, List.length_append, List.length_singleton]; omega
    refine (computes_push (BitVec.ofNat 64 n) clear room').bind (is := [_]) rfl fun d t _ clear ht' => ?_
    rw [ht, List.append_assoc] at ht'
    exact computes_binaryOp .or clear ht'

/-- Without the room for it, some PUSH of a literal's commands finds the stack full. -/
theorem computes_literalChunks_full {m n : Nat} {s : State} (clear : s.eerr = 0)
    (full : 16 < s.live.length + (if m = 0 then 1 else 2)) :
    Computes (literalChunks m n) s s.live (.error .stackOverflow) := by
  have depth : s.live.length ≤ 16 := s.live_length ▸ s.edepth_le
  induction m generalizing n with
  | zero => exact computes_push_full _ clear (by simp only [if_true] at full; omega)
  | succ m ih =>
    rw [if_neg (Nat.succ_ne_zero m)] at full
    by_cases now : 16 < s.live.length + (if m = 0 then 1 else 2)
    · exact (ih (n := n / 2 ^ 64) now).bind (pre' := s.live) (f := .ok) rfl nofun
    · obtain ⟨rfl, hlen⟩ : m = 0 ∧ s.live.length = 15 := by split at now <;> omega
      have first := computes_push (BitVec.ofNat 64 (n / 2 ^ 64)) clear (by omega)
      refine first.bind (f := fun _ => .error .stackOverflow) rfl fun q t _ clear ht => ?_
      have full' : t.live.length = 16 := by rw [ht, List.length_append, List.length_singleton, hlen]
      exact (computes_push_full 64 clear full').bind (is := [_]) (f := .ok) rfl nofun

/-- A literal below `2^64` has a single chunk (R78). -/
theorem log2_div_eq_zero_iff (n : Nat) : n.log2 / 64 = 0 ↔ n < 2 ^ 64 := by
  rcases Nat.eq_zero_or_pos n with rfl | pos
  · decide
  · rw [← Nat.log2_lt pos.ne', Nat.div_eq_zero_iff]
    omega

theorem literal_need_eq (n : Nat) : (Expr.lit n).need = if n.log2 / 64 = 0 then 1 else 2 := by
  simp only [Expr.need, log2_div_eq_zero_iff]

theorem lt_two_pow_literal (n : Nat) : n < 2 ^ (64 * (n.log2 / 64 + 1)) :=
  lt_of_lt_of_le Nat.lt_log2_self (Nat.pow_le_pow_right (by norm_num) (by omega))

theorem bounded_lit (room n : Nat) : (Expr.lit n).bounded Config.thisHardware room =
    if room < (Expr.lit n).need then .error .stackOverflow else checked (.ok n) := rfl

/-- A literal's commands come to what the bounded evaluation says, in any state without a sticky error. -/
theorem computes_literal (n : Nat) {s : State} (clear : s.eerr = 0) :
    Computes (literalCommands n) s s.live ((Expr.lit n).bounded Config.thisHardware (16 - s.live.length)) := by
  have depth : s.live.length ≤ 16 := s.live_length ▸ s.edepth_le
  rw [bounded_lit, literal_need_eq]
  by_cases full : 16 < s.live.length + (if n.log2 / 64 = 0 then 1 else 2)
  · rw [if_pos (by omega)]
    exact computes_literalChunks_full clear full
  · rw [if_neg (by omega)]
    exact computes_literalChunks clear (lt_two_pow_literal n) (by omega)

/-! ## Expressions (R80, R83) -/

theorem bounded_un (room : Nat) (u : UnaryOp) (e : Expr) : (Expr.un u e).bounded Config.thisHardware room =
    (e.bounded Config.thisHardware room).bind fun a => checked (.ok (u.apply a)) := by
  rw [Expr.bounded]
  cases e.bounded Config.thisHardware room <;> rfl

theorem bounded_bin (room : Nat) (o : BinaryOp) (l r : Expr) : (Expr.bin o l r).bounded Config.thisHardware room =
    (l.bounded Config.thisHardware room).bind fun a =>
      (r.bounded Config.thisHardware (room - 1)).bind fun b => checked (o.apply a b) := by
  rw [Expr.bounded]
  cases l.bounded Config.thisHardware room with
  | error x => rfl
  | ok a =>
    cases r.bounded Config.thisHardware (room - 1) with
    | error x => rfl
    | ok b => cases h : o.apply a b <;> simp only [h, exceptBind_ok, checked, exceptBind_error]

theorem gated_commands (e : Expr) : Gated e.commands := by
  induction e with
  | lit n => exact gated_literalChunks _ n
  | un u e ih => exact ih.append (gated_unaryOp u)
  | bin o l r ihl ihr => exact (ihl.append ihr).append (gated_binaryOp o)

/-- An expression's commands come to what the bounded evaluation says, in any state without a sticky error: by induction
on the expression, for every state at once, because the right operand is computed on top of the left one's value. -/
theorem computes_expr (e : Expr) : ∀ {s : State}, s.eerr = 0 →
    Computes e.commands s s.live (e.bounded Config.thisHardware (16 - s.live.length)) := by
  induction e with
  | lit n => exact computes_literal n
  | un u e ih =>
    intro s clear
    rw [bounded_un]
    exact (ih clear).bind (gated_unaryOp u) fun a t _ clear ht => computes_unaryOp u clear ht
  | bin o l r ihl ihr =>
    intro s clear
    rw [bounded_bin, Expr.commands, List.append_assoc]
    refine (ihl clear).bind ((gated_commands r).append (gated_binaryOp o)) fun a t _ clear ht => ?_
    have room : 16 - s.live.length - 1 = 16 - t.live.length := by
      rw [ht, List.length_append, List.length_singleton, Nat.sub_sub]
    rw [room]
    refine (ihr clear).bind (gated_binaryOp o) fun b u _ clear hu => ?_
    rw [ht, List.append_assoc] at hu
    exact computes_binaryOp o clear hu

/-! ## From EBEGIN to COMMIT (R80, R83) -/

/-- A successful evaluation: `v` is committed, and each command before COMMIT returned `(0, 0)`. -/
structure Committed (s : State) (n : Nat) (v : Int) (t : State) : Prop where
  value : (t.value.toNat : Int) = v % 2 ^ 64
  raw : t.raw.toInt = v
  idle : t.idle = true
  responses : t.responses = s.responses ++ List.replicate (1 + n) ⟨0, 0⟩ ++ [⟨0, t.value⟩]

/-- EBEGIN leaves an empty stack and no sticky error, whatever was before (R144). -/
theorem issues_ebegin (s : State) : Issues [.ebegin] s fun t => t.live = [] ∧ t.eerr = 0 ∧ t.value = s.value ∧
    t.raw = s.raw ∧ t.responses = s.responses ++ [⟨0, 0⟩] :=
  issues_single rfl fun rest => ⟨_, exec_ebegin _, by simp, rfl, rfl, rfl, rfl⟩

theorem setWidth_toNat (a : Entry) : ((a.setWidth 64).toNat : Int) = a.toInt % 2 ^ 64 := by
  rw [BitVec.toNat_setWidth, BitVec.toInt_eq_toNat_cond]
  split <;> push_cast <;> omega

/-- COMMIT on one live entry (R146). -/
theorem issues_commit {s : State} {a : Entry} (clear : s.eerr = 0) (one : s.live = [a]) :
    Issues [.commit] s fun t => (t.value.toNat : Int) = a.toInt % 2 ^ 64 ∧ t.raw = a ∧ t.idle = true ∧
      t.responses = s.responses ++ [⟨0, t.value⟩] := by
  refine issues_single rfl fun rest => ⟨_, execCommit_one (s := { s with inputs := rest }) clear one, ?_⟩
  exact ⟨setWidth_toNat a, rfl, by simp [State.idle, clear, okCode], rfl⟩

/-- A failed evaluation: the part of the commands from the first that failed on, and COMMIT, returned its code. -/
structure Aborted (s : State) (n : Nat) (x : Err) (t : State) : Prop where
  value : t.value = s.value
  raw : t.raw = s.raw
  eerr : t.eerr = x.code
  responses : ∃ k m, k + m = n ∧ 0 < m ∧
    t.responses = s.responses ++ List.replicate (1 + k) ⟨0, 0⟩ ++ List.replicate (m + 1) ⟨x.code, 0⟩

section
variable {e : Expr} {s : State}

/-- From any state at all, because EBEGIN makes the evaluator idle. -/
theorem issues_evaluation_ok {v : Int} (h : e.bounded Config.thisHardware 16 = .ok v) :
    Issues e.evaluation s (Committed s e.commands.length v) := by
  rw [Expr.evaluation, List.append_assoc]
  refine (issues_ebegin s).append fun t ⟨empty, clear, hvalue, hraw, begun⟩ => ?_
  have computes := computes_expr e clear
  rw [empty, List.length_nil, Nat.sub_zero, h] at computes
  refine computes.append fun u (pushed : Pushed t [] _ v u) => ?_
  obtain ⟨a, rfl, hlive⟩ := pushed.live
  refine (issues_commit pushed.eerr hlive).imp fun w ⟨hvalue, hraw, idle, committed⟩ => ?_
  refine ⟨hvalue, by rw [hraw], idle, ?_⟩
  rw [committed, pushed.responses, begun, List.append_assoc s.responses, List.replicate_add]
  rfl

theorem issues_evaluation_error {x : Err} (h : e.bounded Config.thisHardware 16 = .error x) :
    Issues e.evaluation s (Aborted s e.commands.length x) := by
  rw [Expr.evaluation, List.append_assoc]
  refine (issues_ebegin s).append fun t ⟨empty, clear, hvalue, hraw, begun⟩ => ?_
  have computes := computes_expr e clear
  rw [empty, List.length_nil, Nat.sub_zero, h] at computes
  refine computes.append fun u (failed : Failed t _ x u) => ?_
  refine (issues_blocked (is := [.commit]) rfl (failed.eerr ▸ x.code_ne_zero)).imp fun w blocked => ?_
  obtain ⟨k, m, hkm, hm, responses⟩ := failed.responses
  refine ⟨blocked.value.trans (failed.value.trans hvalue), blocked.raw.trans (failed.raw.trans hraw),
    blocked.eerr.trans failed.eerr, k, m, hkm, hm, ?_⟩
  simp only [blocked.responses, responses, begun, failed.eerr, List.replicate_add, List.append_assoc]
  rfl

end

/-- Settles O54: the reference gives a value that fits and has its room exactly if the bounded evaluation gives it
(O53), and else the bounded evaluation names the error. -/
theorem evaluationAgreesWithReference : Obligations.EvaluationAgreesWithReference := by
  unfold Obligations.EvaluationAgreesWithReference
  intro e s hinputs _
  constructor
  · intro v hv within need
    obtain ⟨t, hrun, hempty, committed⟩ :=
      (issues_evaluation_ok ((boundedEvaluationIsTheReference _ e 16 v).2 ⟨hv, within, need⟩)).runInstrs hinputs
    exact ⟨t, hrun, committed.value, committed.raw, committed.idle, hempty, committed.responses⟩
  · intro noValue
    cases h : e.bounded Config.thisHardware 16 with
    | ok v => exact absurd ⟨v, (boundedEvaluationIsTheReference _ e 16 v).1 h⟩ noValue
    | error x =>
      obtain ⟨t, hrun, hempty, aborted⟩ := (issues_evaluation_error h).runInstrs hinputs
      obtain ⟨k, m, hkm, hm, responses⟩ := aborted.responses
      exact ⟨x, t, k, m, rfl, hrun, aborted.value, aborted.raw, aborted.eerr, hempty, hkm, hm, responses⟩

/-- Settles O52. -/
theorem literalCommandsPushItsValue : Obligations.LiteralCommandsPushItsValue := by
  unfold Obligations.LiteralCommandsPushItsValue
  intro n s hinputs clear room
  rw [← s.live_length] at room
  have computes := computes_literal n clear
  rw [bounded_lit, if_neg (by omega)] at computes
  constructor
  · intro inRange
    rw [checked_ok_of_fits ((fits_iff_inRange _).2 inRange)] at computes
    obtain ⟨t, hrun, hempty, pushed⟩ := computes.runInstrs hinputs
    have pushed : Pushed s s.live _ n t := pushed
    obtain ⟨x, hx, hlive⟩ := pushed.live
    exact ⟨t, x, hrun, hx, hlive, pushed.eerr, pushed.value, pushed.raw, hempty, pushed.responses⟩
  · intro outOfRange
    rw [checked_ok_of_not_fits (mt (fits_iff_inRange _).1 outOfRange)] at computes
    obtain ⟨t, hrun, hempty, failed⟩ := computes.runInstrs hinputs
    have failed : Failed s _ .evalOverflow t := failed
    exact ⟨t, hrun, failed.eerr, failed.value, failed.raw, hempty⟩

/-! ## The raw value from its chunks (R82) -/

/-- A chunk within the entry is a part of its bits, without sign fill (R147). -/
theorem rawChunk_toNat {raw : Entry} {k : Nat} (h : k < 2) :
    (rawChunk raw k).toNat = raw.toNat / 2 ^ (64 * k) % 2 ^ 64 := by
  have bits : rawChunk raw k = raw.extractLsb' (64 * k) 64 := by
    apply BitVec.eq_of_getLsbD_eq
    intro i hi
    have inside : 64 * k + i < 128 := by omega
    simp [rawChunk, BitVec.getLsbD_sshiftRight, hi, inside]
    omega
  rw [bits, BitVec.extractLsb'_toNat, Nat.shiftRight_eq_div_pow]

/-- Two chunks of 64 bits, the low one first, are the entry. -/
theorem joinRaw_chunks (raw : Entry) : joinRaw [rawChunk raw 0, rawChunk raw 1] = raw.toInt := by
  have low : (rawChunk raw 0).toNat = raw.toNat % 2 ^ 64 := by
    rw [rawChunk_toNat (by decide), Nat.mul_zero, Nat.pow_zero, Nat.div_one]
  have high : (rawChunk raw 1).toNat = raw.toNat / 2 ^ 64 := by
    rw [rawChunk_toNat (by decide), Nat.mul_one, Nat.mod_eq_of_lt]
    have : raw.toNat < 2 ^ 128 := raw.isLt
    omega
  have join : joinChunks [rawChunk raw 0, rawChunk raw 1] = raw.toNat := by
    rw [joinChunks, joinChunks, joinChunks, low, high, Nat.mul_zero, Nat.add_zero, Nat.mod_add_div]
  rw [joinRaw, join]
  exact congrArg BitVec.toInt (BitVec.ofNat_toNat 128 raw)

/-- Settles O44. -/
theorem rawJoinsFromItsChunks : Obligations.RawJoinsFromItsChunks := by
  unfold Obligations.RawJoinsFromItsChunks
  intro s
  refine ⟨[rawChunk s.raw 0, rawChunk s.raw 1], by simp [rawChunkCount], fun k d hd => ?_, joinRaw_chunks s.raw⟩
  rcases k with _ | _ | k
  · cases hd
    exact exec_rdraw s 0
  · cases hd
    exact exec_rdraw s 1
  · cases hd

end Sys2Proof.Machine
end

section
/-! # The host's texts (30_encoding.md, sections 2 to 4): displays, decimal literals, and lines of the assembler -/

namespace Sys2Proof.Machine

/-! ## Digits (R90 to R94) -/

theorem digitValue_digitChar : ∀ d < 16, digitValue (digitChar d) = some d := by decide

theorem digitChar_ne_zero : ∀ d < 16, d ≠ 0 → digitChar d ≠ '0' := by decide

theorem isDigit_digitChar : ∀ d < 10, isDigit (digitChar d) = true := by decide

theorem digitChar_mem_hex : ∀ d < 16, digitChar d ∈ "0123456789ABCDEF".toList := by decide +kernel

/-- The digits of a display are the number's digits, the most significant first. -/
theorem digitsIn_eq {base : Nat} (hbase : 2 ≤ base) {fuel v : Nat} (hv : v ≠ 0) (hfuel : v < base ^ (fuel + 1)) :
    digitsIn base fuel v = ((Nat.digits base v).reverse).map digitChar := by
  induction fuel generalizing v with
  | zero =>
    rw [Nat.digits_of_lt base v hv (by simpa using hfuel)]
    rfl
  | succ fuel ih =>
    rw [digitsIn]
    by_cases small : v < base
    · rw [if_pos small, Nat.digits_of_lt base v hv small]
      rfl
    · have high : v / base ≠ 0 := (Nat.div_pos (Nat.le_of_not_lt small) (by omega)).ne'
      have bound : v / base < base ^ (fuel + 1) := Nat.div_lt_of_lt_mul (by rwa [← pow_succ'])
      rw [if_neg small, ih high bound, Nat.digits_def' (by omega) (Nat.pos_of_ne_zero hv), List.reverse_cons,
        List.map_append]
      rfl

section
variable {base : Nat} (hbase : 2 ≤ base)
include hbase

theorem inBase_eq {v : Nat} (hv : v ≠ 0) : inBase base v = ((Nat.digits base v).reverse).map digitChar := by
  refine digitsIn_eq hbase hv ?_
  calc v < 2 ^ (v.log2 + 1) := Nat.lt_log2_self
    _ ≤ 2 ^ (v.log2 + 1 + 1) := Nat.pow_le_pow_right (by norm_num) (Nat.le_succ _)
    _ ≤ base ^ (v.log2 + 1 + 1) := Nat.pow_le_pow_left hbase _

theorem inBase_zero : inBase base 0 = ['0'] := if_pos (by omega)

theorem inBase_ne_nil (v : Nat) : inBase base v ≠ [] := by
  rcases Nat.eq_zero_or_pos v with rfl | pos
  · rw [inBase_zero hbase]
    exact List.cons_ne_nil _ _
  · simp [inBase_eq hbase pos.ne', Nat.digits_ne_nil_iff_ne_zero, pos.ne']

/-- Every character of a display is a digit of the base. -/
theorem exists_digit_of_mem_inBase {v : Nat} {c : Char} (h : c ∈ inBase base v) : ∃ d < base, digitChar d = c := by
  rcases Nat.eq_zero_or_pos v with rfl | pos
  · rw [inBase_zero hbase, List.mem_singleton] at h
    exact ⟨0, by omega, h.symm⟩
  · rw [inBase_eq hbase pos.ne', List.mem_map] at h
    obtain ⟨d, hd, hc⟩ := h
    exact ⟨d, Nat.digits_lt_base hbase (List.mem_reverse.1 hd), hc⟩

end

/-- Reading digits on from `acc`. -/
theorem digitsValue_map {base : Nat} (hbase : base ≤ 16) {ds : List Nat} (hds : ∀ d ∈ ds, d < base) (acc : Nat) :
    digitsValue base acc (ds.map digitChar) = some (ds.foldl (fun a d => a * base + d) acc) := by
  induction ds generalizing acc with
  | nil => rfl
  | cons d ds ih =>
    obtain ⟨hd, hds⟩ := List.forall_mem_cons.1 hds
    simp only [List.map_cons, digitsValue, digitValue_digitChar d (by omega), if_pos hd, ih hds, List.foldl_cons]

theorem foldl_digits (base v : Nat) : (Nat.digits base v).reverse.foldl (fun a d => a * base + d) 0 = v := by
  rw [List.foldl_reverse]
  conv_rhs => rw [← Nat.ofDigits_digits base v, Nat.ofDigits_eq_foldr]
  simp [Nat.add_comm, Nat.mul_comm]

section
variable {base : Nat} (hbase : 2 ≤ base) (hbase' : base ≤ 16)
include hbase hbase'

/-- A display reads back as the number it shows. -/
theorem numeral_inBase (v : Nat) : numeral base (inBase base v) = some v := by
  rw [numeral, if_neg (by simpa using inBase_ne_nil hbase v)]
  rcases Nat.eq_zero_or_pos v with rfl | pos
  · rw [inBase_zero hbase]
    exact (digitsValue_map hbase' (ds := [0]) (List.forall_mem_singleton.2 (by omega)) 0).trans (by simp)
  · have digits : ∀ d ∈ (Nat.digits base v).reverse, d < base :=
      fun d hd => Nat.digits_lt_base hbase (List.mem_reverse.1 hd)
    rw [inBase_eq hbase pos.ne', digitsValue_map hbase' digits, foldl_digits]

/-- A display other than that of 0 has no leading zero. -/
theorem inBase_head {v : Nat} (hv : v ≠ 0) : (inBase base v).head? ≠ some '0' := by
  have nonempty := Nat.digits_ne_nil_iff_ne_zero (b := base).2 hv
  rw [inBase_eq hbase hv, List.head?_map, List.head?_reverse, List.getLast?_eq_getLast_of_ne_nil nonempty]
  have lead := Nat.getLast_digit_ne_zero base hv
  have small := Nat.digits_lt_base hbase (List.getLast_mem nonempty)
  simpa using digitChar_ne_zero _ (by omega) lead

end

/-- Settles O57. -/
theorem displayReadsBack : Obligations.DisplayReadsBack := by
  unfold Obligations.DisplayReadsBack
  have zero : ∀ base, 2 ≤ base → inBase base (0 : Word).toNat = ['0'] := fun _ hbase => inBase_zero hbase
  refine ⟨fun v => ⟨?_, ?_, ?_, ?_⟩, fun v hv => ?_, ⟨?_, ?_, ?_, ?_, ?_⟩, fun v c hc => ?_, fun raw => ?_⟩
  · exact numeral_inBase (by decide) (by decide) _
  · exact numeral_inBase (by decide) (by decide) _
  · exact numeral_inBase (by decide) (by decide) _
  · exact numeral_inBase (by decide) (by decide) _
  · have hv : v.toNat ≠ 0 := fun h => hv (BitVec.eq_of_toNat_eq h)
    exact ⟨inBase_head (by decide) (by decide) hv, inBase_head (by decide) (by decide) hv,
      inBase_head (by decide) (by decide) hv, inBase_head (by decide) (by decide) hv⟩
  · exact zero 16 (by decide)
  · exact zero 10 (by decide)
  · exact zero 8 (by decide)
  · exact zero 2 (by decide)
  · exact zero 10 (by decide)
  · obtain ⟨d, hd, rfl⟩ := exists_digit_of_mem_inBase (by decide) hc
    exact digitChar_mem_hex d hd
  · refine ⟨inBase 10 raw.toInt.natAbs, numeral_inBase (by decide) (by decide) _, fun hraw => ?_, rfl⟩
    have hraw : raw.toInt ≠ 0 := fun h => hraw (BitVec.eq_of_toInt_eq (h.trans BitVec.toInt_zero.symm))
    exact inBase_head (by decide) (by decide) (Int.natAbs_ne_zero.2 hraw)

/-! ## The decimal rendering as an expression (R95) -/

theorem isRunChar_of_isDigit {c : Char} (h : isDigit c = true) : isRunChar c = true := by
  simp [isRunChar, h]

/-- A digit announces no base: no literal of digits alone is read in another base than ten (R73). -/
theorem markedBase_of_isDigit {c : Char} (h : isDigit c = true) : markedBase c = none := by
  have letter : ∀ m, isDigit m = false → c ≠ m := by
    rintro m hm rfl
    exact absurd (h.symm.trans hm) (by decide)
  simp only [markedBase, letter 'x' (by decide), letter 'X' (by decide), letter 'o' (by decide), letter 'O' (by decide),
    letter 'b' (by decide), letter 'B' (by decide), or_self, if_false]

theorem literalValue_of_digits {cs : List Char} (h : ∀ c ∈ cs, isDigit c = true) :
    literalValue cs = numeral 10 cs := by
  rcases cs with _ | ⟨c, _ | ⟨m, ds⟩⟩
  · rfl
  · rfl
  · rw [literalValue, markedBase_of_isDigit (h m (by simp)), ite_self]

theorem scan_run {run : List Char} {c : Char} (hrun : run ≠ []) (hc : isRunChar c = true) (cs : List Char) :
    scan run (c :: cs) = scan (c :: run) cs := by
  rw [scan.eq_def]
  simp [hrun, hc]

theorem scan_start {c : Char} (hc : isDigit c = true) (cs : List Char) : scan [] (c :: cs) = scan [c] cs := by
  rw [scan.eq_def]
  simp [hc, endRun]

/-- Digits go on with the run they follow (R73). -/
theorem scan_digits {cs : List Char} (h : ∀ c ∈ cs, isDigit c = true) {run : List Char} (hrun : run ≠ []) :
    scan run cs = endRun (cs.reverse ++ run) (some []) := by
  induction cs generalizing run with
  | nil => rfl
  | cons c cs ih =>
    obtain ⟨hc, hcs⟩ := List.forall_mem_cons.1 h
    rw [scan_run hrun (isRunChar_of_isDigit hc), ih hcs (List.cons_ne_nil _ _), List.reverse_cons, List.append_assoc,
      List.singleton_append]

/-- A text of digits alone is one literal. -/
theorem tokenize_digits {cs : List Char} (h : ∀ c ∈ cs, isDigit c = true) (nonempty : cs ≠ []) {n : Nat}
    (value : numeral 10 cs = some n) : tokenize cs = some [.lit n] := by
  rcases cs with _ | ⟨c, cs⟩
  · exact absurd rfl nonempty
  · obtain ⟨hc, hcs⟩ := List.forall_mem_cons.1 h
    have literal : literalValue (c :: cs) = some n := (literalValue_of_digits h).trans value
    rw [tokenize, scan_start hc, scan_digits hcs (List.cons_ne_nil _ _), endRun, if_neg (by simp), List.reverse_append,
      List.reverse_reverse, List.reverse_singleton, List.singleton_append, literal]
    rfl

theorem parse_literal (n : Nat) : parse [.lit n] = some (.lit n) := by
  refine parserFindsEveryDerivation _ _ ?_
  have tight : Derives 5 [.lit n] (.lit n) := .up (by decide) (.primary (.lit n))
  exact .up (by decide) (.up (by decide) (.up (by decide) (.up (by decide) (.up (by decide) tight))))

theorem isDigit_toDec {v : Word} : ∀ c ∈ toDec v, isDigit c = true := by
  intro c hc
  obtain ⟨d, hd, rfl⟩ := exists_digit_of_mem_inBase (by decide) hc
  exact isDigit_digitChar d hd

theorem parseText_toDec (v : Word) : parseText (toDec v) = some (.lit v.toNat) := by
  have tokens : tokenize (toDec v) = some [.lit v.toNat] :=
    tokenize_digits isDigit_toDec (inBase_ne_nil (by decide) _) (numeral_inBase (by decide) (by decide) _)
  rw [parseText, tokens]
  exact parse_literal v.toNat

theorem literal_evaluation (v : Word) : (Expr.lit v.toNat).evaluation = [.ebegin, .push v, .commit] := by
  rw [Expr.evaluation, Expr.commands, literalCommands, (log2_div_eq_zero_iff v.toNat).2 v.isLt, literalChunks,
    BitVec.ofNat_toNat, BitVec.setWidth_eq]
  rfl

theorem bounded_word (v : Word) : (Expr.lit v.toNat).bounded Config.thisHardware 16 = .ok (v.toNat : Int) := by
  have room : ¬ 16 < (Expr.lit v.toNat).need := by
    rw [Expr.need]
    split <;> omega
  rw [bounded_lit, if_neg room, checked_ok_of_fits (fits_word v).1]

/-- Settles O58. -/
theorem decimalRenderingEvaluatesToItself : Obligations.DecimalRenderingEvaluatesToItself := by
  unfold Obligations.DecimalRenderingEvaluatesToItself
  intro v s hinputs
  obtain ⟨t, hrun, -, committed⟩ := (issues_evaluation_ok (s := s) (bounded_word v)).runInstrs hinputs
  rw [literal_evaluation] at hrun
  have value : t.value = v := by
    have := committed.value
    have := v.isLt
    exact BitVec.eq_of_toNat_eq (by omega)
  refine ⟨?_, t, hrun, value, ?_⟩
  · rw [translate, parseText_toDec, Option.map_some, literal_evaluation]
  · rw [committed.responses, List.getLast?_concat, value]

/-! ## Lines of the assembler (R60, R61) -/

theorem trimStart_cons {c : Char} (h : isSpace c = false) (cs : List Char) : trimStart (c :: cs) = c :: cs :=
  List.dropWhile_cons_of_neg (by simp [h])

/-- A text with no whitespace at its ends is left as it is. -/
theorem trim_of_ends {c d : Char} (hc : isSpace c = false) (hd : isSpace d = false) (cs : List Char) :
    trim (c :: cs ++ [d]) = c :: cs ++ [d] := by
  rw [trim, List.cons_append, trimStart_cons hc, ← List.cons_append, List.reverse_append, List.reverse_singleton,
    List.singleton_append, trimStart_cons hd, List.reverse_cons, List.reverse_reverse]

theorem quotedText_quoted (text : List Char) : quotedText (' ' :: '\x22' :: text ++ ['\x22']) = some text := by
  have trimmed : trim (' ' :: '\x22' :: text ++ ['\x22']) = '\x22' :: text ++ ['\x22'] :=
    trim_of_ends (c := '\x22') (d := '\x22') (by decide) (by decide) text
  rw [quotedText, trimmed]
  simp

theorem assembleEval_quoted_of_some {text : List Char} {is : List Instr} (h : translate text = some is) :
    assembleEval (' ' :: '\x22' :: text ++ ['\x22']) = .instrs is := by
  rw [assembleEval, quotedText_quoted]
  simp only [h]

theorem assembleEval_quoted_of_none {text : List Char} (h : translate text = none) :
    assembleEval (' ' :: '\x22' :: text ++ ['\x22']) = .parseError := by
  rw [assembleEval, quotedText_quoted]
  simp only [h]

/-- A line with the mnemonic `EVAL` is handled as its operand text says. -/
theorem assembleLine_of_mnemonic {line rest : List Char}
    (mnemonic : String.ofList ((trim line).takeWhile fun c => !isSpace c) = "EVAL")
    (operand : ((trim line).dropWhile fun c => !isSpace c) = rest) : assembleLine line = assembleEval rest := by
  subst operand
  exact if_pos mnemonic

/-- A line `EVAL "text"` is the mnemonic `EVAL` and the operand text in its quotes. -/
theorem assembleLine_eval (text : List Char) :
    assembleLine ("EVAL \x22".toList ++ text ++ ['\x22']) = assembleEval (' ' :: '\x22' :: text ++ ['\x22']) := by
  have chars : "EVAL \x22".toList = ['E', 'V', 'A', 'L', ' ', '\x22'] := by decide +kernel
  have trimmed : trim ('E' :: ('V' :: 'A' :: 'L' :: ' ' :: '\x22' :: text) ++ ['\x22']) =
      'E' :: ('V' :: 'A' :: 'L' :: ' ' :: '\x22' :: text) ++ ['\x22'] :=
    trim_of_ends (by decide) (by decide) _
  have mnemonic : String.ofList ['E', 'V', 'A', 'L'] = "EVAL" := by decide +kernel
  rw [chars]
  refine assembleLine_of_mnemonic (Eq.trans ?_ mnemonic) ?_
  · exact congrArg (fun line => String.ofList (line.takeWhile fun c => !isSpace c)) trimmed
  · exact congrArg (List.dropWhile fun c => !isSpace c) trimmed

/-- Settles O59. -/
theorem pseudoInstructionsExpand : Obligations.PseudoInstructionsExpand := by
  unfold Obligations.PseudoInstructionsExpand
  refine ⟨?_, fun text e h => ?_, fun text h => ?_, ?_, ?_⟩
  · decide +kernel
  · rw [assembleLine_eval]
    exact assembleEval_quoted_of_some (by rw [translate, h]; rfl)
  · rw [assembleLine_eval]
    exact assembleEval_quoted_of_none (by rw [translate, h]; rfl)
  · decide +kernel
  · decide +kernel

end Sys2Proof.Machine
end

section
/-! # The register access statements (40_register_access.md): SET, GET, GETB and SETB

First an assembled command word as the OR of its shifted fields, then the index check with its two outcomes, then the bit
that GETB reads and the value that SETB writes. -/

namespace Sys2Proof

/-! ## The command word as the OR of its fields (R51) -/

/-- The five fields of a command word do not overlap, so that appending them is an OR of each at its place (R51). -/
theorem wordOf_eq_or (opc a b : Field8) (on : Bool) :
    wordOf opc a b on =
      opc.setWidth 32 <<< 24 ||| a.setWidth 32 <<< 16 ||| b.setWidth 32 <<< 8 ||| (BitVec.ofBool on).setWidth 32 := by
  apply BitVec.eq_of_getLsbD_eq
  intro j hj
  rw [wordOf_getLsbD]
  simp only [BitVec.getLsbD_or, BitVec.getLsbD_shiftLeft, BitVec.getLsbD_setWidth, BitVec.getLsbD_ofBool]
  have beyond (f : Field8) (k : Nat) (hk : 8 ≤ k) : f.getLsbD k = false := BitVec.getLsbD_of_ge f k hk
  grind

/-- A number that fits an 8-bit field keeps its value in the command word (R60). -/
theorem setWidth_fieldOf {n : Nat} (h : n < 256) : (fieldOf n).setWidth 32 = BitVec.ofNat 32 n := by
  apply BitVec.eq_of_toNat_eq
  simp [fieldOf]
  omega

/-- The word of a command with a bit index, which leaves field B at 0 (R52, R53). -/
theorem wordOf_index {i : Nat} (h : i < 256) (opc : Field8) (on : Bool) :
    wordOf opc (fieldOf i) 0 on =
      opc.setWidth 32 <<< 24 ||| BitVec.ofNat 32 i <<< 16 ||| (BitVec.ofBool on).setWidth 32 := by
  rw [wordOf_eq_or, setWidth_fieldOf h]
  simp

theorem encode_getb {i : Nat} (h : i < 256) : encode (.getb i) = ⟨0x03000000 ||| BitVec.ofNat 32 i <<< 16, 0⟩ := by
  rw [encode, wordOf_index h]
  simp

theorem encode_setb {i : Nat} (h : i < 256) (on : Bool) :
    encode (.setb i on) = ⟨0x04000000 ||| BitVec.ofNat 32 i <<< 16 ||| (if on then 1 else 0), 0⟩ := by
  rw [encode, wordOf_index h]
  cases on <;> simp

end Sys2Proof

namespace Sys2Proof.Machine

variable {cfg : Params}

/-! ## The register write and the index check (R23, R100) -/

/-- A 64-bit value needs no masking (R23). -/
theorem State.setValue_word (s : State cfg) (v : Word) : s.setValue v = { s with value := v } := by
  rw [State.setValue, BitVec.setWidth_eq]

theorem withIndex_of_le {i : Nat} (h : i ≤ 63) (s : State cfg) (run : State cfg → Result cfg) :
    withIndex i s run = run s := by
  obtain ⟨-, accepted⟩ | ⟨outOfRange, -⟩ := withIndex_cases i s run
  · exact accepted
  · omega

theorem withIndex_of_gt {i : Nat} (h : 63 < i) (s : State cfg) (run : State cfg → Result cfg) :
    withIndex i s run = .next (s.respond 3 0) := by
  obtain ⟨inRange, -⟩ | ⟨-, rejected⟩ := withIndex_cases i s run
  · omega
  · exact rejected

theorem getb_rejects {i : Nat} (h : 63 < i) (s : State) : Responds (.getb i) s 3 0 := by
  rw [Responds, exec_getb, withIndex_of_gt h]

theorem setb_rejects {i : Nat} (h : 63 < i) (s : State) (on : Bool) : Responds (.setb i on) s 3 0 := by
  rw [Responds, exec_setb, withIndex_of_gt h]

/-! ## Reading a bit (R103) -/

/-- Shifting a bit down to bit 0 and masking reads it. -/
theorem ushiftRight_and_one (v : Word) (i : Nat) : (v >>> i) &&& 1 = if v.getLsbD i then 1 else 0 := by
  have lowest : (v >>> i) &&& 1 = (BitVec.ofBool ((v >>> i).getLsbD 0)).setWidth 64 :=
    BitVec.and_one_eq_setWidth_ofBool_getLsbD
  rw [lowest, BitVec.getLsbD_ushiftRight, Nat.add_zero]
  cases v.getLsbD i <;> rfl

theorem getb_responds {i : Nat} (h : i ≤ 63) (s : State) :
    Responds (.getb i) s 0 (if s.value.getLsbD i then 1 else 0) := by
  rw [Responds, exec_getb, withIndex_of_le h, respond_eq, ushiftRight_and_one]
  rfl

/-! ## Writing a bit (R104) -/

/-- The value SETB writes, from the value before (R104). -/
def writtenBit (i : Nat) (on : Bool) (v : Word) : Word :=
  if on then v ||| bitMask i else v &&& (mask64 ^^^ bitMask i)

theorem setb_writes {i : Nat} (h : i ≤ 63) (on : Bool) (s : State) : Writes (.setb i on) s (writtenBit i on s.value) := by
  rw [Writes, exec_setb, withIndex_of_le h, writeValue_eq, State.setValue_word]
  rfl

/-- OR sets the mask's one bit, AND with the mask's complement clears it, and both keep every other bit (R104). -/
theorem writtenBit_getLsbD {i : Nat} (h : i ≤ 63) (on : Bool) (v : Word) (j : Nat) :
    (writtenBit i on v).getLsbD j = if j = i then on else v.getLsbD j := by
  by_cases inWord : j < 64
  · have maskBit : (bitMask i).getLsbD j = decide (j = i) := by
      rw [bitMask_getLsbD, decide_eq_true inWord, Bool.true_and]
    have complementBit : (mask64 ^^^ bitMask i).getLsbD j = !decide (j = i) := by
      rw [BitVec.getLsbD_xor, mask64_getLsbD, decide_eq_true inWord, maskBit, Bool.true_xor]
    cases on with
    | true =>
      rw [writtenBit, if_pos rfl, BitVec.getLsbD_or, maskBit]
      by_cases at_i : j = i <;> simp [at_i]
    | false =>
      rw [writtenBit, if_neg Bool.false_ne_true, BitVec.getLsbD_and, complementBit]
      by_cases at_i : j = i <;> simp [at_i]
  · rw [BitVec.getLsbD_of_ge _ _ (by omega), BitVec.getLsbD_of_ge v _ (by omega), if_neg (by omega)]

/-! ## The statements -/

/-- Settles O23, by the index check's two outcomes. -/
theorem getbReadsBit : Obligations.GetbReadsBit := by
  unfold Obligations.GetbReadsBit
  exact ⟨fun _ fits => encode_getb fits,
    fun s _ => ⟨fun outOfRange => getb_rejects outOfRange s, fun inRange => getb_responds inRange s⟩⟩

/-- Settles O24: the value written is `writtenBit`, whose bits say the rest. -/
theorem setbWritesBit : Obligations.SetbWritesBit := by
  unfold Obligations.SetbWritesBit
  refine ⟨fun _ on fits => encode_setb fits on, fun s i on => ⟨fun outOfRange => setb_rejects outOfRange s on,
    fun inRange => ⟨writtenBit i on s.value, setb_writes inRange on s, ?_, fun j other => ?_⟩⟩⟩
  · rw [writtenBit_getLsbD inRange, if_pos rfl]
  · rw [writtenBit_getLsbD inRange, if_neg other]

/-- Settles O20: the operand has 64 bits, so that the masking write stores it as it is. -/
theorem setWritesOperand : Obligations.SetWritesOperand := by
  unfold Obligations.SetWritesOperand
  refine fun v => ⟨rfl, fun s => ?_⟩
  rw [Writes, exec_set, State.setValue_word]

/-- Settles O21. -/
theorem getReadsValue : Obligations.GetReadsValue := by
  unfold Obligations.GetReadsValue
  exact ⟨by decide, exec_get⟩

/-- Settles O22. -/
theorem bitIndexChecked : Obligations.BitIndexChecked := by
  unfold Obligations.BitIndexChecked
  exact fun s _ on outOfRange => ⟨getb_rejects outOfRange s, setb_rejects outOfRange s on⟩

end Sys2Proof.Machine
end

section
/-! # The range command statements (41_range.md): RMASK, EXTR, ZERO, ONE and TOGL

First the command word with two bounds and the range check with its two outcomes, then the five commands in range, and
then the masks and the written values bit by bit. -/

namespace Sys2Proof

/-! ## The command word with two bounds (R51, R52) -/

/-- The word of a command with two range bounds, which stand in fields A and B (R52, R53). -/
theorem wordOf_range {a b : Nat} (ha : a < 256) (hb : b < 256) (opc : Field8) :
    wordOf opc (fieldOf a) (fieldOf b) false =
      opc.setWidth 32 <<< 24 ||| BitVec.ofNat 32 a <<< 16 ||| BitVec.ofNat 32 b <<< 8 := by
  rw [wordOf_eq_or, setWidth_fieldOf ha, setWidth_fieldOf hb]
  simp

/-- The command as assembled, its word written with the opcode already in the top byte (R51, R60). -/
theorem command_wordOf_range {a b : Nat} (ha : a < 256) (hb : b < 256) {opc : Field8} {cw : CmdWord}
    (top : opc.setWidth 32 <<< 24 = cw) :
    (⟨wordOf opc (fieldOf a) (fieldOf b) false, 0⟩ : Command) =
      ⟨cw ||| BitVec.ofNat 32 a <<< 16 ||| BitVec.ofNat 32 b <<< 8, 0⟩ := by
  rw [wordOf_range ha hb, top]

end Sys2Proof

namespace Sys2Proof.Machine

variable {cfg : Params} {a b : Nat}

/-! ## The range check (R110) -/

theorem withRange_of_le (ha : a ≤ 63) (hb : b ≤ 63) (s : State cfg) (run : State cfg → Result cfg) :
    withRange a b s run = run s := by
  obtain ⟨-, accepted⟩ | ⟨outOfRange, -⟩ := withRange_cases a b s run
  · exact accepted
  · omega

theorem withRange_of_gt (h : 63 < a ∨ 63 < b) (s : State cfg) (run : State cfg → Result cfg) :
    withRange a b s run = .next (s.respond 3 0) := by
  obtain ⟨inRange, -⟩ | ⟨-, rejected⟩ := withRange_cases a b s run
  · omega
  · exact rejected

/-- The check comes before the swap and asks the same of both bounds (R110). -/
theorem withRange_comm (a b : Nat) (s : State cfg) (run : State cfg → Result cfg) :
    withRange a b s run = withRange b a s run := by
  rw [withRange, withRange, rangeOk, rangeOk, Bool.and_comm]

theorem rangeLo_comm (a b : Nat) : rangeLo a b = rangeLo b a := Nat.min_comm a b

/-! ## What the range commands do (R110 to R115) -/

section
variable {i : Instr} {s : State} {run : State → Result}

/-- A command that begins with the range check is rejected by it when a bound is above 63 (R110). -/
theorem responds_of_outOfRange (meaning : exec i s = withRange a b s run) (h : 63 < a ∨ 63 < b) :
    Responds i s 3 0 := by
  rw [Responds, meaning, withRange_of_gt h]

/-- A range command that writes VALUE writes it when both bounds pass the check. -/
theorem writes_of_inRange {v : Word} (meaning : exec i s = withRange a b s run) (ha : a ≤ 63) (hb : b ≤ 63)
    (written : run s = writeValue v s) : Writes i s v := by
  rw [Writes, meaning, withRange_of_le ha hb, written, writeValue_eq, State.setValue_word]

end

theorem rmask_responds (ha : a ≤ 63) (hb : b ≤ 63) (s : State) : Responds (.rmask a b) s 0 (rangeMask a b) := by
  rw [Responds, exec_rmask, withRange_of_le ha hb, respond_eq]
  rfl

theorem extr_writes (ha : a ≤ 63) (hb : b ≤ 63) (s : State) :
    Writes (.extr a b) s ((s.value &&& rangeMask a b) >>> min a b) :=
  writes_of_inRange (exec_extr s a b) ha hb rfl

theorem zero_writes (ha : a ≤ 63) (hb : b ≤ 63) (s : State) :
    Writes (.zero a b) s (s.value &&& (mask64 ^^^ rangeMask a b)) :=
  writes_of_inRange (exec_zero s a b) ha hb rfl

theorem one_writes (ha : a ≤ 63) (hb : b ≤ 63) (s : State) : Writes (.one a b) s (s.value ||| rangeMask a b) :=
  writes_of_inRange (exec_one s a b) ha hb rfl

theorem togl_writes (ha : a ≤ 63) (hb : b ≤ 63) (s : State) : Writes (.togl a b) s (s.value ^^^ rangeMask a b) :=
  writes_of_inRange (exec_togl s a b) ha hb rfl

theorem togl_rejects (h : 63 < a ∨ 63 < b) (s : State) : Responds (.togl a b) s 3 0 :=
  responds_of_outOfRange (exec_togl s a b) h

/-! ## The range mask as a number and by its bits (R13, R116) -/

/-- The mask's ones end at bit 63 or below it, so that no bit of `(2^(h-l+1) - 1) << l` is cut off (R13). -/
theorem rmask_toNat {l h : Nat} (hl : l ≤ h) (hh : h ≤ 63) : (rmask l h).toNat = (2 ^ (h - l + 1) - 1) * 2 ^ l := by
  have fitsWord : (2 ^ (h - l + 1) - 1) * 2 ^ l < 2 ^ 64 := by
    calc (2 ^ (h - l + 1) - 1) * 2 ^ l
        < 2 ^ (h - l + 1) * 2 ^ l := Nat.mul_lt_mul_of_pos_right (Nat.sub_one_lt (by positivity)) (by positivity)
      _ = 2 ^ (h + 1) := by rw [← pow_add]; congr 1; omega
      _ ≤ 2 ^ 64 := Nat.pow_le_pow_right (by norm_num) (by omega)
  rw [rmask, BitVec.toNat_ofNat, Nat.shiftLeft_eq, Nat.mod_eq_of_lt fitsWord]

theorem rangeMask_toNat (ha : a ≤ 63) (hb : b ≤ 63) :
    (rangeMask a b).toNat = (2 ^ (max a b - min a b + 1) - 1) * 2 ^ min a b :=
  rmask_toNat min_le_max (max_le ha hb)

/-- As many of the first `n` numbers as the interval holds lie in it. -/
theorem length_filter_interval {l h n : Nat} (hle : l ≤ h) (hn : h < n) :
    ((List.range n).filter fun j => decide (l ≤ j) && decide (j ≤ h)).length = h - l + 1 := by
  calc ((List.range n).filter fun j => decide (l ≤ j) && decide (j ≤ h)).length
      = Nat.count (fun j => l ≤ j ∧ j ≤ h) n := by simp [Nat.count, List.countP_eq_length_filter]
    _ = (Finset.Icc l h).card := by
        rw [Nat.count_eq_card_filter_range]
        congr 1
        ext j
        simp only [Finset.mem_filter, Finset.mem_range, Finset.mem_Icc]
        omega
    _ = h - l + 1 := by rw [Nat.card_Icc, Nat.sub_add_comm hle]

/-! ## The written values bit by bit (R112 to R115) -/

/-- Bits below the range are shifted out, and bits above it were cleared by the mask (R112). -/
theorem extracted_getLsbD (ha : a ≤ 63) (hb : b ≤ 63) (v : Word) (j : Nat) :
    ((v &&& rangeMask a b) >>> min a b).getLsbD j = (decide (min a b + j ≤ max a b) && v.getLsbD (min a b + j)) := by
  rw [BitVec.getLsbD_ushiftRight, BitVec.getLsbD_and, rangeMask_getLsbD ha hb,
    decide_eq_true (Nat.le_add_right (min a b) j), Bool.true_and, Bool.and_comm]

/-- AND with a mask's complement clears the mask's bits and keeps the others. -/
theorem cleared_getLsbD (v m : Word) (j : Nat) : (v &&& (mask64 ^^^ m)).getLsbD j = (v.getLsbD j && !m.getLsbD j) := by
  rw [BitVec.getLsbD_and, BitVec.getLsbD_xor, mask64_getLsbD]
  by_cases inWord : j < 64
  · rw [decide_eq_true inWord, Bool.true_xor]
  · rw [BitVec.getLsbD_of_ge v j (by omega), Bool.false_and, Bool.false_and]

/-- The full range's mask is `MASK64` (R120). -/
theorem rangeMask_full : rangeMask 0 63 = BitVec.allOnes 64 := by decide

/-! ## The statements -/

/-- Settles O26, by the range check's two outcomes. -/
theorem rmaskReturnsRangeMask : Obligations.RmaskReturnsRangeMask := by
  unfold Obligations.RmaskReturnsRangeMask
  exact ⟨fun _ _ fitsA fitsB => command_wordOf_range fitsA fitsB rfl,
    fun s a b => ⟨responds_of_outOfRange (exec_rmask s a b),
      fun ha hb => ⟨rangeMask a b, rmask_responds ha hb s, rangeMask_toNat ha hb, fun _ => rangeMask_getLsbD ha hb⟩⟩⟩

/-- Settles O27: the set bits are the numbers of an interval, which are counted as such. -/
theorem rangeMaskBitCount : Obligations.RangeMaskBitCount := by
  unfold Obligations.RangeMaskBitCount
  intro s a b ha hb
  refine ⟨rangeMask a b, rmask_responds ha hb s, ?_⟩
  simp only [rangeMask_getLsbD ha hb]
  refine ⟨length_filter_interval min_le_max (by omega), ?lowest, fun j below => ?below, fun j above => ?above⟩
  case lowest => rw [decide_eq_true le_rfl, decide_eq_true min_le_max, Bool.true_and]
  case below => rw [decide_eq_false (not_le.mpr below), Bool.false_and]
  case above => rw [decide_eq_false (not_le.mpr above), Bool.and_false]

/-- Settles O28, by the bits of the masked and shifted VALUE. -/
theorem extrExtractsRange : Obligations.ExtrExtractsRange := by
  unfold Obligations.ExtrExtractsRange
  exact ⟨fun _ _ fitsA fitsB => command_wordOf_range fitsA fitsB rfl,
    fun s a b => ⟨responds_of_outOfRange (exec_extr s a b),
      fun ha hb => ⟨_, extr_writes ha hb s, extracted_getLsbD ha hb s.value⟩⟩⟩

/-- Settles O29: RMASK and EXTR use the same mask. -/
theorem extrIsMaskThenShift : Obligations.ExtrIsMaskThenShift := by
  unfold Obligations.ExtrIsMaskThenShift
  exact fun s a b ha hb => ⟨rangeMask a b, rmask_responds ha hb s, extr_writes ha hb s⟩

/-- Settles O30: each written bit is told by the mask's bit, which says whether it lies in the range. -/
theorem zeroOneToglChangeTheRange : Obligations.ZeroOneToglChangeTheRange := by
  unfold Obligations.ZeroOneToglChangeTheRange
  refine ⟨fun _ _ fitsA fitsB => ⟨command_wordOf_range fitsA fitsB rfl, command_wordOf_range fitsA fitsB rfl,
      command_wordOf_range fitsA fitsB rfl⟩,
    fun s a b => ⟨fun outOfRange => ⟨responds_of_outOfRange (exec_zero s a b) outOfRange,
      responds_of_outOfRange (exec_one s a b) outOfRange, togl_rejects outOfRange s⟩,
    fun ha hb => ⟨_, _, _, zero_writes ha hb s, one_writes ha hb s, togl_writes ha hb s, fun j => ?_⟩⟩⟩
  have maskBit : (rangeMask a b).getLsbD j = decide (min a b ≤ j ∧ j ≤ max a b) := by
    rw [rangeMask_getLsbD ha hb, Bool.decide_and]
  rw [cleared_getLsbD, BitVec.getLsbD_or, BitVec.getLsbD_xor, maskBit]
  split
  · next inside =>
    rw [decide_eq_true inside]
    simp
  · next outside =>
    rw [decide_eq_false outside]
    simp

/-- Settles O32: the mask cancels against itself, and a rejected TOGL writes nothing at all. -/
theorem toglTwiceRestores : Obligations.ToglTwiceRestores := by
  unfold Obligations.ToglTwiceRestores
  intro s a b
  by_cases inRange : a ≤ 63 ∧ b ≤ 63
  · obtain ⟨ha, hb⟩ := inRange
    have cancels : (s.value ^^^ rangeMask a b) ^^^ rangeMask a b = s.value := by
      rw [BitVec.xor_assoc, BitVec.xor_self, BitVec.xor_zero]
    exact ⟨_, _, togl_writes ha hb s, togl_writes ha hb _, cancels, rfl, rfl, rfl, rfl⟩
  · have outOfRange : 63 < a ∨ 63 < b := by omega
    exact ⟨_, _, togl_rejects outOfRange s, togl_rejects outOfRange _, rfl, rfl, rfl, rfl, rfl⟩

/-- Settles O25: all five commands begin with the same check. -/
theorem rangeBoundsChecked : Obligations.RangeBoundsChecked := by
  unfold Obligations.RangeBoundsChecked
  exact fun s a b outOfRange => ⟨responds_of_outOfRange (exec_rmask s a b) outOfRange,
    responds_of_outOfRange (exec_extr s a b) outOfRange, responds_of_outOfRange (exec_zero s a b) outOfRange,
    responds_of_outOfRange (exec_one s a b) outOfRange, togl_rejects outOfRange s⟩

/-- Settles O31: the check, the mask and the lower bound are each the same for the swapped bounds. -/
theorem rangeOrderIndependent : Obligations.RangeOrderIndependent := by
  unfold Obligations.RangeOrderIndependent
  intro s a b
  simp only [exec_rmask, exec_extr, exec_zero, exec_one, exec_togl, withRange_comm a b, rangeMask_comm a b,
    rangeLo_comm a b, and_self]

/-- Settles O33: the full range's mask has every bit set. -/
theorem fullToggleComplements : Obligations.FullToggleComplements := by
  unfold Obligations.FullToggleComplements
  intro s
  have complement : s.value ^^^ rangeMask 0 63 = ~~~s.value := by rw [rangeMask_full, BitVec.xor_allOnes]
  refine ⟨_, togl_writes (by omega) le_rfl s, complement, ?_⟩
  rw [complement, BitVec.toNat_not]

end Sys2Proof.Machine
end

section
/-! # The register shift statements (42_shift.md): SHL and SHR

First what the two command words decode to, then the value each command writes; no amount is checked, so neither command
has an error case. -/

namespace Sys2Proof

/-! ## The amount is the low half of the operand (R52, R130) -/

theorem decode_shl (op : Word) : decode ⟨0x0A000000, op⟩ = .ok (.shl (op.toNat % 2 ^ 32)) := by
  rw [← amountField_eq_mod]
  have selected : rows[9].selects 0x0A000000 = true := by decide
  exact decode_of_selects (c := ⟨0x0A000000, op⟩) (List.getElem_mem _) selected

theorem decode_shr (op : Word) : decode ⟨0x0B000000, op⟩ = .ok (.shr (op.toNat % 2 ^ 32)) := by
  rw [← amountField_eq_mod]
  have selected : rows[10].selects 0x0B000000 = true := by decide
  exact decode_of_selects (c := ⟨0x0B000000, op⟩) (List.getElem_mem _) selected

end Sys2Proof

namespace Sys2Proof.Machine

/-! ## The written values (R131 to R133) -/

theorem shl_writes (n : Nat) (s : State) : Writes (.shl n) s (shiftedLeft s.value n) := by
  rw [Writes, exec_shl, State.setValue_word]

theorem shr_writes (n : Nat) (s : State) : Writes (.shr n) s (shiftedRight s.value n) := by
  rw [Writes, exec_shr, State.setValue_word]

theorem shiftedLeft_of_ge {n : Nat} (h : 64 ≤ n) (v : Word) : shiftedLeft v n = 0 := if_pos h

theorem shiftedRight_of_ge {n : Nat} (h : 64 ≤ n) (v : Word) : shiftedRight v n = 0 := if_pos h

/-! ## The statements -/

/-- Settles O34, by the numeric value of each shift. -/
theorem shiftsAreExactThenMasked : Obligations.ShiftsAreExactThenMasked := by
  unfold Obligations.ShiftsAreExactThenMasked
  exact ⟨fun _ _ => ⟨rfl, rfl⟩, fun op => ⟨decode_shl op, decode_shr op⟩,
    fun s n => ⟨⟨_, shl_writes n s, shiftedLeft_toNat s.value n⟩, ⟨_, shr_writes n s, shiftedRight_toNat s.value n⟩⟩⟩

/-- Settles O35: both commands write for every amount, so for the decoded one. -/
theorem shiftAmountIsLowOperandHalf : Obligations.ShiftAmountIsLowOperandHalf := by
  unfold Obligations.ShiftAmountIsLowOperandHalf
  exact fun op => ⟨decode_shl op, decode_shr op, fun s => ⟨⟨_, shl_writes _ s⟩, ⟨_, shr_writes _ s⟩⟩⟩

/-- Settles O36. -/
theorem shiftsSaturateToZero : Obligations.ShiftsSaturateToZero := by
  unfold Obligations.ShiftsSaturateToZero
  intro s n h
  have left : Writes (.shl n) s 0 := shiftedLeft_of_ge h s.value ▸ shl_writes n s
  have right : Writes (.shr n) s 0 := shiftedRight_of_ge h s.value ▸ shr_writes n s
  exact ⟨left, right⟩

end Sys2Proof.Machine
end

section
/-! # The evaluator control statements (43_evaluator_control.md): EBEGIN, PUSH, COMMIT, RDRAW and RDSTAT

First what a sticky error does to every command, then PUSH and COMMIT case by case, and then the chunks that RDRAW
reads. -/

namespace Sys2Proof

/-- The chunk number stands in field A (R52, R53). -/
theorem encode_rdraw {k : Nat} (h : k < 256) : encode (.rdraw k) = ⟨0x2F000000 ||| BitVec.ofNat 32 k <<< 16, 0⟩ := by
  rw [encode, wordOf_index h]
  simp

end Sys2Proof

namespace Sys2Proof.Machine

variable {cfg : Params}

/-! ## The sticky error (R140, R143) -/

/-- Of a gated command's effects a sticky error leaves the blocked one alone. -/
theorem responds_of_sticky {i : Instr} {s : State} (gated : i.isGated = true) (sticky : s.eerr ≠ 0) :
    Responds i s s.eerr 0 := by
  obtain ⟨t, hrun, effect⟩ := exec_effect i s
  cases effect with
  | register _ _ family => cases family.symm.trans (isRegister_of_isGated gated)
  | read _ _ ungated => cases ungated.symm.trans gated
  | ebegin command => subst command; cases gated
  | blocked => exact hrun
  | failed _ _ clear => exact absurd clear sticky
  | stored _ _ _ clear => exact absurd clear sticky
  | committed _ _ clear => exact absurd clear sticky

/-- Settles O16: what any other command does under a sticky error keeps the error. -/
theorem onlyEbeginLeavesErrorState : Obligations.OnlyEbeginLeavesErrorState := by
  unfold Obligations.OnlyEbeginLeavesErrorState
  intro i s sticky notEbegin
  obtain ⟨t, hrun, effect⟩ := exec_effect i s
  obtain ⟨r, kept⟩ := effect.keepsError sticky notEbegin
  exact ⟨t, hrun, kept.eerr, kept.live, kept.edepth, kept.raw⟩

/-- Settles O37: the three ungated commands by their meanings, which do not look at EERR. -/
theorem gatedCommandsBlocked : Obligations.GatedCommandsBlocked := by
  unfold Obligations.GatedCommandsBlocked
  refine ⟨fun i s => responds_of_sticky, fun i s ungated => ?_⟩
  rcases ungated with rfl | ⟨k, rfl⟩ | rfl
  · exact ⟨_, 0, exec_ebegin s, rfl⟩
  · exact ⟨_, rawChunk s.raw k, exec_rdraw s k, rfl⟩
  · exact ⟨_, statusWord s, exec_rdstat s, rfl⟩

/-! ## EBEGIN and PUSH (R144, R145) -/

/-- Settles O40. -/
theorem ebeginStartsEvaluation : Obligations.EbeginStartsEvaluation := by
  unfold Obligations.EbeginStartsEvaluation
  exact ⟨by decide, fun s => ⟨_, exec_ebegin s, rfl, s.emptyStack_live, rfl, rfl, rfl, rfl, rfl⟩⟩

/-- Settles O41: the entry holds the 64-bit operand exactly, because it is wider. -/
theorem pushPushesLiteral : Obligations.PushPushesLiteral := by
  unfold Obligations.PushPushesLiteral
  refine fun v => ⟨rfl, fun s => ⟨responds_of_sticky rfl, execPush_full v, fun clear room => ?_⟩⟩
  exact ⟨_, _, execPush_room v clear room, toInt_setWidth_word v, State.push_live s _ room, rfl, rfl, rfl, rfl, rfl⟩

/-! ## COMMIT (R146) -/

/-- With EDEPTH at 1 the live stack is a single entry (R24). -/
theorem State.exists_live_singleton {s : State cfg} (one : s.edepth.val = 1) : ∃ v, s.live = [v] :=
  List.length_eq_one_iff.1 (s.live_length.trans one)

/-- Settles O42. -/
theorem commitStoresResult : Obligations.CommitStoresResult := by
  unfold Obligations.CommitStoresResult
  refine ⟨by decide, fun s => ⟨responds_of_sticky rfl, execCommit_missing, fun v clear one => ?_⟩⟩
  exact ⟨_, execCommit_one clear one, setWidth_toNat v, rfl, rfl, clear, rfl, rfl⟩

/-! ## The chunks of RAW (R147) -/

/-- Above the entry's own bits a chunk repeats the sign bit, and every bit of the chunk is one of the shifted entry's, which
has more than 64 (R6, R9, R147). -/
theorem rawChunk_getLsbD (raw : Entry cfg) (k : Nat) {j : Nat} (h : j < 64) :
    (rawChunk raw k).getLsbD j = if 64 * k + j < cfg.evalWidth then raw.getLsbD (64 * k + j) else raw.msb := by
  have inEntry : j < cfg.evalWidth := by have := cfg.evalWidth_ge; omega
  rw [rawChunk, BitVec.getLsbD_setWidth, BitVec.getLsbD_sshiftRight, decide_eq_true h,
    decide_eq_false (Nat.not_le.2 inEntry), Bool.not_false, Bool.true_and, Bool.true_and]

/-- Chunk 0 is the entry's low 64 bits, which COMMIT stores in VALUE (R23, R147). -/
theorem rawChunk_zero (raw : Entry cfg) : rawChunk raw 0 = raw.setWidth 64 := by
  rw [rawChunk, Nat.mul_zero, BitVec.sshiftRight_zero]

/-- Settles O43. -/
theorem rdrawReadsChunk : Obligations.RdrawReadsChunk := by
  unfold Obligations.RdrawReadsChunk
  refine ⟨fun _ fits => encode_rdraw fits,
    fun s k => ⟨_, exec_rdraw s k, fun _ inChunk => rawChunk_getLsbD s.raw k inChunk⟩, fun s clear one => ?_⟩
  obtain ⟨v, live⟩ := State.exists_live_singleton one
  refine ⟨_, execCommit_one clear live, ?_⟩
  rw [Responds, exec_rdraw, State.respond_raw, State.emptyStack_raw, State.setRaw_raw, rawChunk_zero]
  rfl

/-! ## RDSTAT (R149) -/

/-- Settles O45, by the numeric value of RDSTAT's word. -/
theorem rdstatReadsStatus : Obligations.RdstatReadsStatus := by
  unfold Obligations.RdstatReadsStatus
  exact ⟨by decide, fun s => ⟨_, exec_rdstat s, statusWord_toNat s⟩⟩

end Sys2Proof.Machine
end

section
/-! # The evaluator ALU statements (44_evaluator_alu.md): the unary and the binary operators

First how any operator ends, said of the operator of the expression language whose command it is: its checks, and then what
its checked result says. Then which results fit an entry, which R172 asks of their low 64 bits, and the statements. -/

namespace Sys2Proof.Machine

/-! ## How an operator ends (R142, R148) -/

/-- The command ends as its checked result says: with the value on top of the entries `pre`, or with the error. -/
def EndsWith (i : Instr) (s : State) (pre : List Entry) : Except Err Int → Prop
  | .ok r => LeavesOnTop i s pre r
  | .error e => FailsWith i s e

theorem exec_unaryOp (u : UnaryOp) (s : State) : exec u.command s = unop (fun a => .ok (u.apply a)) s := by
  cases u with
  | neg => exact exec_eneg s
  | not => exact exec_enot s

/-- The machine's function of a binary operator has the reference's result, once both are checked: only the shifts differ,
whose count the machine caps. -/
theorem exec_binaryOp (o : BinaryOp) : ∃ f, (∀ s, exec o.command s = binop f s) ∧
    ∀ a b : Entry, checked (f a.toInt b.toInt) = checked (o.apply a.toInt b.toInt) := by
  cases o with
  | mul => exact ⟨_, exec_emul, fun _ _ => rfl⟩
  | div => exact ⟨_, exec_ediv, fun _ _ => rfl⟩
  | mod => exact ⟨_, exec_emod, fun _ _ => rfl⟩
  | add => exact ⟨_, exec_eadd, fun _ _ => rfl⟩
  | sub => exact ⟨_, exec_esub, fun _ _ => rfl⟩
  | shl => exact ⟨_, exec_eshl, fun a b => checked_aluShl a.toInt b.toInt⟩
  | shr => exact ⟨_, exec_eshr, fun a b => congrArg checked (aluShr_toInt a b.toInt)⟩
  | and => exact ⟨_, exec_eand, fun _ _ => rfl⟩
  | xor => exact ⟨_, exec_exor, fun _ _ => rfl⟩
  | or => exact ⟨_, exec_eor, fun _ _ => rfl⟩

theorem unaryOp_isGated (u : UnaryOp) : u.command.isGated = true := (gated_cons_iff.1 (gated_unaryOp u)).1.1

theorem binaryOp_isGated (o : BinaryOp) : o.command.isGated = true := (gated_cons_iff.1 (gated_binaryOp o)).1.1

theorem checksOperands_unaryOp (u : UnaryOp) : ChecksOperands u.command 1 := by
  refine fun s => ⟨responds_of_sticky (unaryOp_isGated u), fun clear missing => ?_⟩
  rw [FailsWith, exec_unaryOp]
  rcases unop_cases (fun a => .ok (u.apply a)) s with ⟨sticky, -⟩ | ⟨-, -, fails⟩ | ⟨-, live, -⟩
  · exact absurd clear sticky
  · exact fails
  · exact absurd live (Nat.not_lt.2 (Nat.le_of_lt_succ missing))

theorem checksOperands_binaryOp (o : BinaryOp) : ChecksOperands o.command 2 := by
  obtain ⟨f, meaning, -⟩ := exec_binaryOp o
  refine fun s => ⟨responds_of_sticky (binaryOp_isGated o), fun clear missing => ?_⟩
  rw [FailsWith, meaning]
  rcases binop_cases f s with ⟨sticky, -⟩ | ⟨-, -, fails⟩ | ⟨-, live, -⟩
  · exact absurd clear sticky
  · exact fails
  · exact absurd live (Nat.not_lt.2 (Nat.le_of_lt_succ missing))

section
variable {s : State} {pre : List Entry} {a b : Entry}

theorem endsWith_of_finishOperator {i : Instr} {x : Except Err Int} {store : Entry → State}
    (meaning : exec i s = finishOperator x s store) (above : LeavesAbove pre s store) :
    EndsWith i s pre (checked x) := by
  rcases finishOperator_cases x s store with ⟨e, rfl, ends⟩ | ⟨r, rfl, fitting, ends⟩ | ⟨r, rfl, overflow, ends⟩
  · exact meaning.trans ends
  · rw [checked_ok_of_fits fitting]
    obtain ⟨hlive, hvalue, hraw, heerr, hinputs, hresponses⟩ := above (BitVec.ofInt 128 r)
    refine ⟨_, _, meaning.trans ends, toInt_ofInt_of_fits fitting, hlive, hvalue, hraw, heerr, hinputs, ?_⟩
    rw [State.respond_responses, hresponses]
  · rw [checked_ok_of_not_fits (Bool.eq_false_iff.1 overflow)]
    exact meaning.trans ends

theorem endsWith_unaryOp (u : UnaryOp) (clear : s.eerr = 0) (live : s.live = pre ++ [a]) :
    EndsWith u.command s pre (checked (.ok (u.apply a.toInt))) := by
  obtain ⟨store, hrun, above⟩ := unop_live (f := fun a => .ok (u.apply a)) clear live
  exact endsWith_of_finishOperator ((exec_unaryOp u s).trans hrun) above

theorem endsWith_binaryOp (o : BinaryOp) (clear : s.eerr = 0) (live : s.live = pre ++ [a, b]) :
    EndsWith o.command s pre (checked (o.apply a.toInt b.toInt)) := by
  obtain ⟨f, meaning, sameResult⟩ := exec_binaryOp o
  obtain ⟨store, hrun, above⟩ := binop_live (f := f) clear live
  rw [← sameResult]
  exact endsWith_of_finishOperator ((meaning s).trans hrun) above

/-- A value in range is left on top, and one out of range is an EvalOverflow (R142). -/
theorem EndsWith.of_ok {i : Instr} {r : Int} (h : EndsWith i s pre (checked (.ok r))) :
    (InRange r → LeavesOnTop i s pre r) ∧ (¬ InRange r → FailsWith i s .evalOverflow) := by
  refine ⟨fun inRange => ?_, fun outside => ?_⟩
  · rwa [checked_ok_of_fits ((fits_iff_inRange r).2 inRange)] at h
  · rwa [checked_ok_of_not_fits (mt (fits_iff_inRange r).1 outside)] at h

theorem unaryOp_ends (u : UnaryOp) (clear : s.eerr = 0) (live : s.live = pre ++ [a]) :
    (InRange (u.apply a.toInt) → LeavesOnTop u.command s pre (u.apply a.toInt)) ∧
      (¬ InRange (u.apply a.toInt) → FailsWith u.command s .evalOverflow) :=
  (endsWith_unaryOp u clear live).of_ok

theorem binaryOp_ends (o : BinaryOp) {r : Int} (clear : s.eerr = 0) (live : s.live = pre ++ [a, b])
    (value : o.apply a.toInt b.toInt = .ok r) :
    (InRange r → LeavesOnTop o.command s pre r) ∧ (¬ InRange r → FailsWith o.command s .evalOverflow) :=
  (value ▸ endsWith_binaryOp o clear live).of_ok

theorem binaryOp_fails (o : BinaryOp) {e : Err} (clear : s.eerr = 0) (live : s.live = pre ++ [a, b])
    (error : o.apply a.toInt b.toInt = .error e) : FailsWith o.command s e := by
  have ends := endsWith_binaryOp o clear live
  rw [error] at ends
  exact ends

end

/-! ## Results in range (R142) -/

/-- The range of this hardware. -/
theorem inRange_iff (v : Int) : InRange v ↔ -(2 ^ 127) ≤ v ∧ v ≤ 2 ^ 127 - 1 := Iff.rfl

theorem inRange_toInt (a : Entry) : InRange a.toInt := (fits_iff_inRange _).1 (fits_toInt a)

/-- Negation leaves the range at its least value alone (R160). -/
theorem inRange_neg_iff {v : Int} (h : InRange v) : InRange (-v) ↔ v ≠ -(2 ^ 127) := by
  rw [inRange_iff] at h ⊢
  omega

/-- `~a` swaps the two halves of the range (R161). -/
theorem inRange_inot {v : Int} (h : InRange v) : InRange (inot v) := by
  rw [inRange_iff] at h ⊢
  rw [inot]
  omega

theorem inRange_ofNat_iff (m : Nat) : InRange (.ofNat m) ↔ m < 2 ^ 127 := by
  rw [inRange_iff, Int.ofNat_eq_natCast]
  omega

theorem inRange_negSucc_iff (m : Nat) : InRange (.negSucc m) ↔ m < 2 ^ 127 := by
  rw [inRange_iff]
  omega

/-- No bitwise operation has a result beyond its operands, because each sets no bit from which both are free (R169). -/
theorem inRange_iand {a b : Int} (ha : InRange a) (hb : InRange b) : InRange (iand a b) := by
  cases a <;> cases b <;> simp only [iand, inRange_ofNat_iff, inRange_negSucc_iff] at ha hb ⊢
  case ofNat.ofNat m n => exact Nat.and_lt_two_pow m hb
  case ofNat.negSucc m n => exact Nat.xor_lt_two_pow ha (Nat.and_lt_two_pow m hb)
  case negSucc.ofNat m n => exact Nat.xor_lt_two_pow hb (Nat.and_lt_two_pow m hb)
  case negSucc.negSucc m n => exact Nat.or_lt_two_pow ha hb

/-- As `inRange_iand` (R171). -/
theorem inRange_ior {a b : Int} (ha : InRange a) (hb : InRange b) : InRange (ior a b) := by
  cases a <;> cases b <;> simp only [ior, inRange_ofNat_iff, inRange_negSucc_iff] at ha hb ⊢
  case ofNat.ofNat m n => exact Nat.or_lt_two_pow ha hb
  case ofNat.negSucc m n => exact Nat.xor_lt_two_pow hb (Nat.and_lt_two_pow m hb)
  case negSucc.ofNat m n => exact Nat.xor_lt_two_pow ha (Nat.and_lt_two_pow m hb)
  case negSucc.negSucc m n => exact Nat.and_lt_two_pow m hb

/-- As `inRange_iand` (R170). -/
theorem inRange_ixor {a b : Int} (ha : InRange a) (hb : InRange b) : InRange (ixor a b) := by
  cases a <;> cases b <;> simp only [ixor, inRange_ofNat_iff, inRange_negSucc_iff] at ha hb ⊢ <;>
    exact Nat.xor_lt_two_pow ha hb

/-! ## Floor quotients (R10) -/

theorem isFloorQuotient_fdiv (a b : Int) : IsFloorQuotient a b (fdiv a b) := ⟨fdiv_pos, fdiv_neg⟩

/-- The one quotient out of range is `-2^127 / -1` (R163). -/
theorem IsFloorQuotient.inRange {a b q : Int} (h : IsFloorQuotient a b q) (ha : InRange a) (nonzero : b ≠ 0)
    (notLeast : ¬ (a = -(2 ^ 127) ∧ b = -1)) : InRange q := by
  obtain ⟨positive, negative⟩ := h
  rw [inRange_iff] at ha ⊢
  rcases lt_or_gt_of_ne nonzero with below | above
  · obtain ⟨lower, upper⟩ := negative below
    by_cases one : b = -1
    · subst one
      omega
    · have two : b ≤ -2 := by omega
      constructor <;> by_contra outside <;> nlinarith
  · obtain ⟨lower, upper⟩ := positive above
    constructor <;> by_contra outside <;> nlinarith

/-- The remainder of floor division is 0 or has the divisor's sign, and is smaller than the divisor (R164). -/
theorem IsFloorQuotient.remainder {a b q : Int} (h : IsFloorQuotient a b q) (nonzero : b ≠ 0) :
    |a - b * q| < |b| ∧ 0 ≤ (a - b * q) * b := by
  obtain ⟨positive, negative⟩ := h
  rcases lt_or_gt_of_ne nonzero with below | above
  · obtain ⟨lower, upper⟩ := negative below
    have nonpos : a - b * q ≤ 0 := by linarith
    rw [abs_of_nonpos nonpos, abs_of_neg below]
    exact ⟨by linarith, mul_nonneg_of_nonpos_of_nonpos nonpos below.le⟩
  · obtain ⟨lower, upper⟩ := positive above
    have nonneg : 0 ≤ a - b * q := by linarith
    rw [abs_of_nonneg nonneg, abs_of_pos above]
    exact ⟨by linarith, mul_nonneg nonneg above.le⟩

theorem inRange_of_abs_lt {r b : Int} (hb : InRange b) (smaller : |r| < |b|) : InRange r := by
  rw [inRange_iff] at hb ⊢
  have bound : |b| ≤ 2 ^ 127 := abs_le.2 ⟨hb.1, by omega⟩
  have := abs_lt.1 (smaller.trans_le bound)
  omega

/-! ## The value of each operator with an error of its own (R163, R164, R167, R168) -/

theorem div_apply_of_ne (a : Int) {b : Int} (nonzero : b ≠ 0) : BinaryOp.div.apply a b = .ok (fdiv a b) :=
  if_neg nonzero

theorem mod_apply_of_ne (a : Int) {b : Int} (nonzero : b ≠ 0) : BinaryOp.mod.apply a b = .ok (a - b * fdiv a b) :=
  if_neg nonzero

theorem shl_apply_of_nonneg (a : Int) {b : Int} (nonneg : 0 ≤ b) : BinaryOp.shl.apply a b = .ok (a * 2 ^ b.toNat) := by
  rw [shl_apply, if_neg nonneg.not_gt, ishl]
  norm_cast

theorem shr_apply_of_nonneg (a : Int) {b : Int} (nonneg : 0 ≤ b) :
    BinaryOp.shr.apply a b = .ok (fdiv a (2 ^ b.toNat)) := by
  rw [shr_apply, if_neg nonneg.not_gt, ishr]
  norm_cast

/-! ## The bits of an integer, and its low bits (R11, R12) -/

theorem ibit_eq (a : Int) (k : Nat) : ibit a k = a / 2 ^ k % 2 := by
  rw [ibit, fmod_eq, fdiv, Int.fmod_eq_emod_of_nonneg _ (by norm_num), Int.fdiv_eq_ediv_of_nonneg _ (by positivity)]
  push_cast
  rfl

/-- One more bit of the remainder. -/
theorem emod_two_pow_succ (a : Int) (n : Nat) : a % 2 ^ (n + 1) = a % 2 ^ n + 2 ^ n * ibit a n := by
  rw [ibit_eq, pow_succ, Int.emod_def a (2 ^ n * 2), Int.emod_def a (2 ^ n), Int.emod_def (a / 2 ^ n) 2,
    Int.ediv_ediv_of_nonneg (by positivity)]
  ring

theorem ibit_eq_zero_or_one (a : Int) (k : Nat) : ibit a k = 0 ∨ ibit a k = 1 := by
  rw [ibit_eq]
  exact Int.emod_two_eq _

/-- Two integers agree modulo `2^n` when their low `n` bits are the same. -/
theorem modEq_two_pow_iff {a b : Int} {n : Nat} : a ≡ b [ZMOD 2 ^ n] ↔ ∀ k < n, ibit a k = ibit b k := by
  induction n with
  | zero => simp [Int.modEq_one]
  | succ n ih =>
    have positive : (0 : Int) < 2 ^ n := by positivity
    have ha := Int.emod_nonneg a positive.ne'
    have ha' := Int.emod_lt_of_pos a positive
    have hb := Int.emod_nonneg b positive.ne'
    have hb' := Int.emod_lt_of_pos b positive
    rw [Nat.forall_lt_succ_right, ← ih, Int.ModEq, Int.ModEq, emod_two_pow_succ, emod_two_pow_succ]
    rcases ibit_eq_zero_or_one a n with ea | ea <;> rcases ibit_eq_zero_or_one b n with eb | eb <;>
      rw [ea, eb] <;> omega

/-- An operation on bits gives low bits that depend only on the operands' low bits. -/
theorem modEq_of_bitwise {g op : Int → Int → Int} (bitwise : ∀ a b k, ibit (op a b) k = g (ibit a k) (ibit b k))
    {a a' b b' : Int} {n : Nat} (ha : a ≡ a' [ZMOD 2 ^ n]) (hb : b ≡ b' [ZMOD 2 ^ n]) :
    op a b ≡ op a' b' [ZMOD 2 ^ n] := by
  rw [modEq_two_pow_iff] at ha hb ⊢
  intro k low
  rw [bitwise, bitwise, ha k low, hb k low]

/-! ## Which low bits a result depends on (R172) -/

theorem sameLowBits_iff (a b : Entry) : SameLowBits a b ↔ a.toInt ≡ b.toInt [ZMOD 2 ^ 64] := Iff.rfl

theorem unaryOp_modEq (u : UnaryOp) {a a' : Int} {n : Nat} (h : a ≡ a' [ZMOD 2 ^ n]) :
    u.apply a ≡ u.apply a' [ZMOD 2 ^ n] := by
  cases u with
  | neg => exact h.neg
  | not => exact h.neg.sub_right 1

/-- The binary operators of R172's list, in O51's order. -/
def lowBitOps : List BinaryOp := [.mul, .add, .sub, .and, .xor, .or, .shl]

/-- Arithmetic respects congruence, and the bitwise operators work bit by bit. -/
theorem binaryOp_modEq {o : BinaryOp} (listed : o ∈ lowBitOps) {a a' b b' r r' : Int} {n : Nat}
    (ha : a ≡ a' [ZMOD 2 ^ n]) (hb : b ≡ b' [ZMOD 2 ^ n]) (count : o = .shl → b = b')
    (h : o.apply a b = .ok r) (h' : o.apply a' b' = .ok r') : r ≡ r' [ZMOD 2 ^ n] := by
  cases o with
  | mul => cases h; cases h'; exact ha.mul hb
  | add => cases h; cases h'; exact ha.add hb
  | sub => cases h; cases h'; exact ha.sub hb
  | and => cases h; cases h'; exact modEq_of_bitwise ibit_iand ha hb
  | xor => cases h; cases h'; exact modEq_of_bitwise (g := fun x y => (x + y) % 2) ibit_ixor ha hb
  | or => cases h; cases h'; exact modEq_of_bitwise ibit_ior ha hb
  | shl =>
    obtain rfl := count rfl
    rw [shl_apply] at h h'
    by_cases negative : b < 0
    · rw [if_pos negative] at h
      cases h
    · rw [if_neg negative] at h h'
      cases h
      cases h'
      exact ha.mul_right _
  | div => exact absurd listed (by decide)
  | mod => exact absurd listed (by decide)
  | shr => exact absurd listed (by decide)

section
variable {i : Instr} {s t : State} {pre : List Entry} {a b : Entry}

/-- A command that succeeds has no code but 0 to return. -/
theorem Succeeds.code_eq_zero (h : Succeeds i s t) {u : State} {c : Code} {d : Word}
    (answers : exec i s = .next (u.respond c d)) (same : u.responses = s.responses) : c = 0 := by
  obtain ⟨hrun, hresponses⟩ := h
  cases hrun.symm.trans answers
  rw [State.respond_responses, same] at hresponses
  cases List.append_cancel_left hresponses
  rfl

/-- A gated command that succeeds found no sticky error (R140). -/
theorem Succeeds.clear (h : Succeeds i s t) (gated : i.isGated = true) : s.eerr = 0 := by
  by_contra sticky
  exact sticky (h.code_eq_zero (responds_of_sticky gated sticky) rfl)

/-- An operator that succeeds has left its checked result on top. -/
theorem Succeeds.of_endsWith (h : Succeeds i s t) {x : Except Err Int} (ends : EndsWith i s pre x) :
    ∃ y : Entry, x = .ok y.toInt ∧ t.live = pre ++ [y] := by
  cases x with
  | ok r =>
    obtain ⟨u, y, hrun, rfl, live, -⟩ := ends
    cases h.1.symm.trans hrun
    exact ⟨y, rfl, live⟩
  | error e => exact absurd (h.code_eq_zero (u := { s with eerr := e.code }) ends rfl) e.code_ne_zero

/-- A checked result is the result. -/
theorem eq_ok_of_checked {x : Except Err Int} {r : Int} (h : checked x = .ok r) : x = .ok r := by
  cases x with
  | error e => cases h
  | ok v =>
    by_cases fitting : fits Config.thisHardware v = true
    · rwa [checked_ok_of_fits fitting] at h
    · rw [checked_ok_of_not_fits fitting] at h
      cases h

theorem Succeeds.unaryOp {u : UnaryOp} (h : Succeeds u.command s t) (live : s.live = pre ++ [a]) :
    ∃ y : Entry, y.toInt = u.apply a.toInt ∧ t.live = pre ++ [y] := by
  obtain ⟨y, value, top⟩ := h.of_endsWith (endsWith_unaryOp u (h.clear (unaryOp_isGated u)) live)
  exact ⟨y, (Except.ok.inj (eq_ok_of_checked value)).symm, top⟩

theorem Succeeds.binaryOp {o : BinaryOp} (h : Succeeds o.command s t) (live : s.live = pre ++ [a, b]) :
    ∃ y : Entry, o.apply a.toInt b.toInt = .ok y.toInt ∧ t.live = pre ++ [y] := by
  obtain ⟨y, value, top⟩ := h.of_endsWith (endsWith_binaryOp o (h.clear (binaryOp_isGated o)) live)
  exact ⟨y, eq_ok_of_checked value, top⟩

end

theorem unaryOp_lowBits (u : UnaryOp) {s s' t t' : State} {pre pre' : List Entry} {a a' : Entry}
    (live : s.live = pre ++ [a]) (live' : s'.live = pre' ++ [a']) (same : SameLowBits a a')
    (h : Succeeds u.command s t) (h' : Succeeds u.command s' t') :
    ∃ x x', t.live = pre ++ [x] ∧ t'.live = pre' ++ [x'] ∧ SameLowBits x x' := by
  obtain ⟨x, value, top⟩ := h.unaryOp live
  obtain ⟨x', value', top'⟩ := h'.unaryOp live'
  refine ⟨x, x', top, top', ?_⟩
  rw [sameLowBits_iff, value, value']
  exact unaryOp_modEq u same

theorem binaryOp_lowBits {o : BinaryOp} (listed : o ∈ lowBitOps) {s s' t t' : State} {pre pre' : List Entry}
    {a a' b b' : Entry} (live : s.live = pre ++ [a, b]) (live' : s'.live = pre' ++ [a', b']) (same : SameLowBits a a')
    (sameRight : if o = .shl then b = b' else SameLowBits b b')
    (h : Succeeds o.command s t) (h' : Succeeds o.command s' t') :
    ∃ x x', t.live = pre ++ [x] ∧ t'.live = pre' ++ [x'] ∧ SameLowBits x x' := by
  obtain ⟨x, value, top⟩ := h.binaryOp live
  obtain ⟨x', value', top'⟩ := h'.binaryOp live'
  refine ⟨x, x', top, top', ?_⟩
  by_cases shift : o = .shl
  · obtain rfl : b = b' := (if_pos shift).mp sameRight
    exact binaryOp_modEq listed same rfl (fun _ => rfl) value value'
  · have sameRight : SameLowBits b b' := (if_neg shift).mp sameRight
    exact binaryOp_modEq listed same sameRight (absurd · shift) value value'

theorem command_eq_eshl_iff (o : BinaryOp) : o.command = .eshl ↔ o = .shl := by
  cases o <;> simp [BinaryOp.command]

/-- A state whose two live entries are these (R33, R141). -/
def stateOfTwo (a b : Entry) : State :=
  (State.reset.push a (Nat.zero_lt_succ 15)).push b (Nat.one_lt_succ_succ 14)

theorem stateOfTwo_live (a b : Entry) : (stateOfTwo a b).live = [] ++ [a, b] :=
  (State.push_live _ b _).trans (congrArg (· ++ [b]) (State.push_live State.reset a _))

theorem stateOfTwo_succeeds (o : BinaryOp) {a b : Entry} {r : Int} (value : o.apply a.toInt b.toInt = .ok r)
    (inRange : InRange r) :
    ∃ t x, Succeeds o.command (stateOfTwo a b) t ∧ t.live = [x] ∧ x.toInt = r := by
  obtain ⟨t, x, hrun, hx, live, -, -, -, -, responses⟩ := (binaryOp_ends o rfl (stateOfTwo_live a b) value).1 inRange
  exact ⟨t, x, ⟨hrun, responses⟩, live, hx⟩

/-- Left operands with the same low 64 bits whose results differ there: the operator reads the bits above. -/
theorem highBits_matter (o : BinaryOp) {a a' b : Entry} {r r' : Int} (same : a.toInt % 2 ^ 64 = a'.toInt % 2 ^ 64)
    (value : o.apply a.toInt b.toInt = .ok r) (value' : o.apply a'.toInt b.toInt = .ok r')
    (inRange : InRange r) (inRange' : InRange r') (differ : r % 2 ^ 64 ≠ r' % 2 ^ 64) :
    ∃ (s s' t t' : State) (a a' b x x' : Entry), s.live = [a, b] ∧ s'.live = [a', b] ∧ SameLowBits a a' ∧
      Succeeds o.command s t ∧ Succeeds o.command s' t' ∧ t.live = [x] ∧ t'.live = [x'] ∧ ¬ SameLowBits x x' := by
  obtain ⟨t, x, succeeds, live, rfl⟩ := stateOfTwo_succeeds o value inRange
  obtain ⟨t', x', succeeds', live', rfl⟩ := stateOfTwo_succeeds o value' inRange'
  exact ⟨_, _, t, t', a, a', b, x, x', stateOfTwo_live a b, stateOfTwo_live a' b, same, succeeds, succeeds', live,
    live', differ⟩

/-! ## The statements -/

/-- Settles O46. -/
theorem enegEnotRule : Obligations.EnegEnotRule := by
  unfold Obligations.EnegEnotRule
  refine ⟨by decide, by decide, checksOperands_unaryOp .neg, checksOperands_unaryOp .not, fun s pre a clear live => ?_⟩
  obtain ⟨negates, overflows⟩ := unaryOp_ends .neg clear live
  have negFits := inRange_neg_iff (inRange_toInt a)
  refine ⟨fun least => overflows fun h => negFits.1 h least, fun notLeast => negates (negFits.2 notLeast), ?_⟩
  exact (unaryOp_ends .not clear live).1 (inRange_inot (inRange_toInt a))

/-- Settles O47: none of the three has an error of its own. -/
theorem emulEaddEsubRule : Obligations.EmulEaddEsubRule := by
  unfold Obligations.EmulEaddEsubRule
  refine ⟨by decide, by decide, by decide, checksOperands_binaryOp .mul, checksOperands_binaryOp .add,
    checksOperands_binaryOp .sub, fun s pre a b clear live => ?_⟩
  obtain ⟨mul, mulOverflow⟩ := binaryOp_ends .mul clear live rfl
  obtain ⟨add, addOverflow⟩ := binaryOp_ends .add clear live rfl
  obtain ⟨sub, subOverflow⟩ := binaryOp_ends .sub clear live rfl
  exact ⟨mul, mulOverflow, add, addOverflow, sub, subOverflow⟩

/-- Settles O48: the floor quotient has one case out of range, and its remainder none. -/
theorem edivEmodRule : Obligations.EdivEmodRule := by
  unfold Obligations.EdivEmodRule
  refine ⟨by decide, by decide, checksOperands_binaryOp .div, checksOperands_binaryOp .mod,
    fun s pre a b clear live => ?_⟩
  have quotient := isFloorQuotient_fdiv a.toInt b.toInt
  refine ⟨fun zero => ?_, fun least minusOne => ?_, fun nonzero notLeast => ?_, fun nonzero => ?_⟩
  · exact ⟨binaryOp_fails .div clear live (if_pos zero), binaryOp_fails .mod clear live (if_pos zero)⟩
  · have value := div_apply_of_ne a.toInt (b := b.toInt) (by omega)
    refine (binaryOp_ends .div clear live value).2 ?_
    rw [least, minusOne]
    decide
  · have value := div_apply_of_ne a.toInt nonzero
    exact ⟨_, quotient, (binaryOp_ends .div clear live value).1 (quotient.inRange (inRange_toInt a) nonzero notLeast)⟩
  · obtain ⟨smaller, sign⟩ := quotient.remainder nonzero
    have value := mod_apply_of_ne a.toInt nonzero
    have inRange := inRange_of_abs_lt (inRange_toInt b) smaller
    exact ⟨_, quotient, (binaryOp_ends .mod clear live value).1 inRange, smaller, sign⟩

/-- Settles O49: a right shift is a floor quotient by a positive number, so it stays in range. -/
theorem eshlEshrRule : Obligations.EshlEshrRule := by
  unfold Obligations.EshlEshrRule
  refine ⟨by decide, by decide, checksOperands_binaryOp .shl, checksOperands_binaryOp .shr,
    fun s pre a b clear live => ?_⟩
  refine ⟨fun negative => ?_, fun nonneg => ?_, fun nonneg => ?_, fun nonneg => ?_⟩
  · exact ⟨binaryOp_fails .shl clear live (if_pos negative), binaryOp_fails .shr clear live (if_pos negative)⟩
  · exact (binaryOp_ends .shl clear live (shl_apply_of_nonneg a.toInt nonneg)).1
  · exact (binaryOp_ends .shl clear live (shl_apply_of_nonneg a.toInt nonneg)).2
  · have positive : (0 : Int) < 2 ^ b.toInt.toNat := by positivity
    have quotient := isFloorQuotient_fdiv a.toInt (2 ^ b.toInt.toNat)
    have inRange := quotient.inRange (inRange_toInt a) positive.ne' (by omega)
    exact ⟨_, quotient, (binaryOp_ends .shr clear live (shr_apply_of_nonneg a.toInt nonneg)).1 inRange⟩

/-- Settles O50. -/
theorem eandExorEorRule : Obligations.EandExorEorRule := by
  unfold Obligations.EandExorEorRule
  refine ⟨by decide, by decide, by decide, checksOperands_binaryOp .and, checksOperands_binaryOp .xor,
    checksOperands_binaryOp .or, fun s pre a b clear live => ?_⟩
  simp only [← ibit_eq]
  have ha := inRange_toInt a
  have hb := inRange_toInt b
  exact ⟨⟨_, (binaryOp_ends .and clear live rfl).1 (inRange_iand ha hb), ibit_iand a.toInt b.toInt⟩,
    ⟨_, (binaryOp_ends .xor clear live rfl).1 (inRange_ixor ha hb), ibit_ixor a.toInt b.toInt⟩,
    ⟨_, (binaryOp_ends .or clear live rfl).1 (inRange_ior ha hb), ibit_ior a.toInt b.toInt⟩⟩

/-- Settles O51: its false cases are R172's own examples, `(1 << 64) >> 1`, `-7 / 2` and `(0 - 1) % 10`, each beside the
operand with the same low 64 bits that a wraparound unit would hold. -/
theorem lowBitsDependOnLowBits : Obligations.LowBitsDependOnLowBits := by
  unfold Obligations.LowBitsDependOnLowBits
  refine ⟨fun i listed => ?_, fun i listed => ?_, fun i listed => ?_⟩
  · obtain ⟨u, rfl⟩ : ∃ u : UnaryOp, u.command = i := by
      simp only [List.mem_cons, List.not_mem_nil, or_false] at listed
      rcases listed with rfl | rfl
      · exact ⟨.neg, rfl⟩
      · exact ⟨.not, rfl⟩
    exact fun s s' t t' pre pre' a a' => unaryOp_lowBits u
  · obtain ⟨o, inList, rfl⟩ : ∃ o ∈ lowBitOps, o.command = i := List.mem_map.1 listed
    intro s s' t t' pre pre' a a' b b' live live' same sameRight
    simp only [command_eq_eshl_iff] at sameRight
    exact binaryOp_lowBits inList live live' same sameRight
  · simp only [List.mem_cons, List.not_mem_nil, or_false] at listed
    rcases listed with rfl | rfl | rfl
    · exact highBits_matter .div (a := BitVec.ofInt 128 (-7)) (a' := BitVec.ofInt 128 (2 ^ 64 - 7))
        (b := BitVec.ofInt 128 2) (r := -4) (r' := 2 ^ 63 - 4) (by decide) (by decide) (by decide) (by decide)
        (by decide) (by decide)
    · exact highBits_matter .mod (a := BitVec.ofInt 128 (-1)) (a' := BitVec.ofInt 128 (2 ^ 64 - 1))
        (b := BitVec.ofInt 128 10) (r := 9) (r' := 5) (by decide) (by decide) (by decide) (by decide)
        (by decide) (by decide)
    · exact highBits_matter .shr (a := BitVec.ofInt 128 (2 ^ 64)) (a' := BitVec.ofInt 128 0)
        (b := BitVec.ofInt 128 1) (r := 2 ^ 63) (r' := 0) (by decide) (by decide) (by decide) (by decide)
        (by decide) (by decide)

end Sys2Proof.Machine
end

section
/-! # The exception statements (60_exceptions.md): no trap and no stop

The four things a step can do are the model's `step_cases`; only a decoded command could stop, and `exec_effect` says that
each of the 28 meanings answers a next state. -/

namespace Sys2Proof.Machine

/-- Settles O11: a wait, a reset and an illegal command answer a next state of their own, and a decoded command answers
with one of its effects (R200, R208). -/
theorem stepAlwaysAnswersNext : Obligations.StepAlwaysAnswersNext := by
  unfold Obligations.StepAlwaysAnswersNext
  intro s
  rcases step_cases s with ⟨-, waits⟩ | ⟨_, _, -, resets⟩ | ⟨_, i, rest, -, -, runs⟩ | ⟨_, _, _, -, -, rejects⟩
  · exact ⟨_, waits⟩
  · exact ⟨_, resets⟩
  · obtain ⟨t, answers, -⟩ := exec_effect i { s with inputs := rest }
    exact ⟨t, runs.trans answers⟩
  · exact ⟨_, rejects⟩

end Sys2Proof.Machine
end

section
/-! # The reset and hazard statements (70_reset_and_hazards.md): EBEGIN on an idle evaluator

EBEGIN writes 0 to EDEPTH and to EERR, and on an idle evaluator both hold 0 already (R232). -/

namespace Sys2Proof.Machine

variable {cfg : Params} {s : State cfg}

theorem State.idle_iff : s.idle = true ↔ s.edepth = 0 ∧ s.eerr = 0 := by
  rw [State.idle, Bool.and_eq_true, beq_iff_eq, beq_iff_eq, Fin.val_eq_zero_iff, okCode]

theorem State.emptyStack_eq_self (empty : s.edepth = 0) : s.emptyStack = s := by
  rw [State.emptyStack, ← empty]

theorem State.clearError_eq_self (clear : s.eerr = 0) : s.clearError = s := by
  rw [State.clearError, okCode, ← clear]

/-- Settles O39: of EBEGIN's next state only the response is left (R144). -/
theorem ebeginOnIdleChangesNothing : Obligations.EbeginOnIdleChangesNothing := by
  unfold Obligations.EbeginOnIdleChangesNothing
  intro s idle
  obtain ⟨empty, clear⟩ := State.idle_iff.1 idle
  rw [Responds, exec_ebegin, State.emptyStack_eq_self empty, State.clearError_eq_self clear]

end Sys2Proof.Machine
end
